-- ==== Sys2Proof/Word.lean ====
section
/-! DEFINITION. The word types of the block (spec/00_scope.md R11): u32 words, u8 bytes, and a color triple. -/

namespace Sys2Proof

/-- `u32`: a command word, an argument word, a response word or a register (R11). -/
abbrev Word := BitVec 32

/-- `u8`: one channel of the Frame Buffer, a hue code or a saturation code (R11, R16). -/
abbrev Byte := BitVec 8

/-- The triple (R, G, B) that the Color Model returns (R13, R101). -/
structure Rgb where
  r : Byte
  g : Byte
  b : Byte
deriving DecidableEq, Repr

end Sys2Proof
end

