-- ==== Sys2Proof/Syntax.lean ====
section
/-! DEFINITION. The commands of the test-mode port (spec/30_encoding.md R70 to R74), the error names of
spec/60_exceptions.md R220, and the assembler's source lines (R76, R77). -/

namespace Sys2Proof

/-- A command with its operands, one constructor per row of the opcode map R74. Every operand has the width of its
field (R72, R73), so no operand can be out of its field; operands stand in the order of the assembler (R76). -/
inductive Instr where
  | nop
  | hsv (hue sat : Byte)
  | paint (idx : Word) (hue sat : Byte)
  | flicker
  | flickerx (idx : Word) (hue rdraw : Byte)
  | smear
  | decay
  | transmit
  | tick
  | rdbuf (addr : Word)
  | wrbuf (addr : Word) (data : Byte)
  | rdreg (reg : BitVec 4)
  | wrreg (reg : BitVec 4) (value : Word)
deriving DecidableEq, Repr

/-- The command errors of R220; codes 7 to 15 are never recorded, so they have no name. -/
inductive CmdError where
  | illegalOpcode
  | reservedNonzero
  | badReg
  | indexRange
  | addrRange
  | drawRange
deriving DecidableEq, Repr

/-- The register names an assembler line may use (R76). -/
inductive RegName where
  | tick
  | lastEvent
  | status
  | cfgN
  | cfgTickW
  | lines
deriving DecidableEq, Repr

/-- A register operand of an assembler line: by number or by name (R76). -/
inductive RegOperand where
  | number (n : Nat)
  | name (r : RegName)
deriving DecidableEq, Repr

/-- One line of assembler source: the thirteen commands with operands as numbers (R76), then the seven
pseudo-instructions (R77; `SETTICK` and `SETLAST` count as one row there). -/
inductive Asm where
  | nop
  | hsv (hue sat : Nat)
  | paint (idx hue sat : Nat)
  | flicker
  | flickerx (idx hue r : Nat)
  | smear
  | decay
  | transmit
  | tick
  | rdbuf (addr : Nat)
  | wrbuf (addr data : Nat)
  | rdreg (reg : RegOperand)
  | wrreg (reg : RegOperand) (value : Nat)
  | setrgb (idx r g b : Nat)
  | getrgb (idx : Nat)
  | settick (v : Nat)
  | setlast (v : Nat)
  | stages
  | run (n : Nat)
  | clearfb
deriving DecidableEq, Repr

end Sys2Proof
end

