-- ==== Sys2Proof/WellFormed.lean ====
section
/-! DEFINITION. Which assembler lines are well formed: every operand fits its field (spec/30_encoding.md R76, R77).
The operands of an `Instr` carry their field's width in their type, so every `Instr` is well formed. -/

namespace Sys2Proof

/-- A number fits a field of the given width (R76 "an operand that does not fit its field"). -/
def fits (width v : Nat) : Bool := decide (v < 2 ^ width)

/-- A register operand fits CMD[3:0]; a name always does (R76 "reg above 15"). -/
def RegOperand.fits : RegOperand → Bool
  | .number n => Sys2Proof.fits 4 n
  | .name _ => true

/-- The check the assembler makes: hue, sat, r and data are at most 255, reg at most 15, and idx, addr and value fit
ARG (R76). A pseudo-instruction is well formed when its expansion is (R77). -/
def Asm.wellFormed : Asm → Bool
  | .nop => true
  | .hsv hue sat => fits 8 hue && fits 8 sat
  | .paint idx hue sat => fits 32 idx && fits 8 hue && fits 8 sat
  | .flicker => true
  | .flickerx idx hue r => fits 32 idx && fits 8 hue && fits 8 r
  | .smear => true
  | .decay => true
  | .transmit => true
  | .tick => true
  | .rdbuf addr => fits 32 addr
  | .wrbuf addr data => fits 32 addr && fits 8 data
  | .rdreg reg => reg.fits
  | .wrreg reg value => reg.fits && fits 32 value
  | .setrgb idx r g b => fits 32 (3 * idx + 2) && fits 8 r && fits 8 g && fits 8 b
  | .getrgb idx => fits 32 (3 * idx + 2)
  | .settick v => fits 32 v
  | .setlast v => fits 32 v
  | .stages => true
  | .run _ => true
  | .clearfb => true

end Sys2Proof
end

