-- ==== Sys2Proof/Decode.lean ====
section
/-! DEFINITION. The opcode map, the decoder, and the encoder (spec/30_encoding.md R71 to R76). -/

namespace Sys2Proof

/-- A row of the opcode map (R74): OPC, match and mask over CMD, and the instruction whose operands are taken from
the fields of R72. -/
structure OpcodeRow where
  mnemonic : String
  opc : Byte
  pattern : Word
  mask : Word
  build : Word → Word → Instr

/-- OPC = CMD[31:24] (R71). -/
def fieldOpc (cmd : Word) : Byte := cmd.extractLsb' 24 8

/-- RDRAW = CMD[23:16] (R72). -/
def fieldRdraw (cmd : Word) : Byte := cmd.extractLsb' 16 8

/-- SAT = CMD[15:8] (R72). -/
def fieldSat (cmd : Word) : Byte := cmd.extractLsb' 8 8

/-- HUE = CMD[7:0], and DATA = CMD[7:0] (R72). -/
def fieldLow (cmd : Word) : Byte := cmd.extractLsb' 0 8

/-- REG = CMD[3:0] (R72). -/
def fieldReg (cmd : Word) : BitVec 4 := cmd.extractLsb' 0 4

/-- The opcode map R74, in its order. -/
def opcodeTable : List OpcodeRow :=
  [ { mnemonic := "NOP", opc := 0x00, pattern := 0x00000000, mask := 0xFFFFFFFF,
      build := fun _ _ => .nop },
    { mnemonic := "HSV", opc := 0x01, pattern := 0x01000000, mask := 0xFFFF0000,
      build := fun cmd _ => .hsv (fieldLow cmd) (fieldSat cmd) },
    { mnemonic := "PAINT", opc := 0x02, pattern := 0x02000000, mask := 0xFFFF0000,
      build := fun cmd arg => .paint arg (fieldLow cmd) (fieldSat cmd) },
    { mnemonic := "FLICKER", opc := 0x03, pattern := 0x03000000, mask := 0xFFFFFFFF,
      build := fun _ _ => .flicker },
    { mnemonic := "FLICKERX", opc := 0x04, pattern := 0x04000000, mask := 0xFF00FF00,
      build := fun cmd arg => .flickerx arg (fieldLow cmd) (fieldRdraw cmd) },
    { mnemonic := "SMEAR", opc := 0x05, pattern := 0x05000000, mask := 0xFFFFFFFF,
      build := fun _ _ => .smear },
    { mnemonic := "DECAY", opc := 0x06, pattern := 0x06000000, mask := 0xFFFFFFFF,
      build := fun _ _ => .decay },
    { mnemonic := "TRANSMIT", opc := 0x07, pattern := 0x07000000, mask := 0xFFFFFFFF,
      build := fun _ _ => .transmit },
    { mnemonic := "TICK", opc := 0x08, pattern := 0x08000000, mask := 0xFFFFFFFF,
      build := fun _ _ => .tick },
    { mnemonic := "RDBUF", opc := 0x09, pattern := 0x09000000, mask := 0xFFFFFFFF,
      build := fun _ arg => .rdbuf arg },
    { mnemonic := "WRBUF", opc := 0x0A, pattern := 0x0A000000, mask := 0xFFFFFF00,
      build := fun cmd arg => .wrbuf arg (fieldLow cmd) },
    { mnemonic := "RDREG", opc := 0x0B, pattern := 0x0B000000, mask := 0xFFFFFFF0,
      build := fun cmd _ => .rdreg (fieldReg cmd) },
    { mnemonic := "WRREG", opc := 0x0C, pattern := 0x0C000000, mask := 0xFFFFFFF0,
      build := fun cmd arg => .wrreg (fieldReg cmd) arg } ]

/-- The row of OPC, if any. -/
def findRow (opc : Byte) : List OpcodeRow → Option OpcodeRow
  | [] => none
  | row :: rest => if row.opc = opc then some row else findRow opc rest

/-- Decoding, total on every pair of words, in the order of R75: an undefined OPC is ILLEGAL_OPCODE, then a reserved
bit at 1 is RESERVED_NONZERO, then the row's instruction. -/
def decode (cmd arg : Word) : Except CmdError Instr :=
  match findRow (fieldOpc cmd) opcodeTable with
  | none => .error .illegalOpcode
  | some row =>
    if cmd &&& row.mask = row.pattern then .ok (row.build cmd arg) else .error .reservedNonzero

/-- The command word of the formats R72: OPC, then CMD[23:16], CMD[15:8] and CMD[7:0]. -/
def packCmd (opc b2 b1 b0 : Byte) : Word := opc ++ b2 ++ b1 ++ b0

/-- The encoder: CMD and ARG as the assembler writes them (R76), ARG = 0 where the command ignores it. -/
def encode : Instr → Word × Word
  | .nop => (packCmd 0x00 0 0 0, 0)
  | .hsv hue sat => (packCmd 0x01 0 sat hue, 0)
  | .paint idx hue sat => (packCmd 0x02 0 sat hue, idx)
  | .flicker => (packCmd 0x03 0 0 0, 0)
  | .flickerx idx hue rdraw => (packCmd 0x04 rdraw 0 hue, idx)
  | .smear => (packCmd 0x05 0 0 0, 0)
  | .decay => (packCmd 0x06 0 0 0, 0)
  | .transmit => (packCmd 0x07 0 0 0, 0)
  | .tick => (packCmd 0x08 0 0 0, 0)
  | .rdbuf addr => (packCmd 0x09 0 0 0, addr)
  | .wrbuf addr data => (packCmd 0x0A 0 0 data, addr)
  | .rdreg reg => (packCmd 0x0B 0 0 (reg.setWidth 8), 0)
  | .wrreg reg value => (packCmd 0x0C 0 0 (reg.setWidth 8), value)

/-- Whether the command uses ARG (R71, R72). -/
def Instr.usesArg : Instr → Bool
  | .nop => false
  | .hsv _ _ => false
  | .paint _ _ _ => true
  | .flicker => false
  | .flickerx _ _ _ => true
  | .smear => false
  | .decay => false
  | .transmit => false
  | .tick => false
  | .rdbuf _ => true
  | .wrbuf _ _ => true
  | .rdreg _ => false
  | .wrreg _ _ => true

/-- The instruction of a row of spec/opcode_table.json given as one number: CMD in bits 31:0 and ARG in bits 63:32,
every bit at and above `nbits` taken as 0. -/
def decodeTableWord (nbits w : Nat) : Option Instr :=
  let v := w % 2 ^ nbits
  match decode (BitVec.ofNat 32 v) (BitVec.ofNat 32 (v / 2 ^ 32)) with
  | .ok i => some i
  | .error _ => none

end Sys2Proof
end

