-- ==== Sys2Proof/Config.lean ====
section
/-! DEFINITION. The configuration record of spec/00_scope.md R8, its legal ranges (R10), and the free value
of a draw (spec/10_state.md R38). -/

namespace Sys2Proof

/-- One channel's source under `LITERAL` (spec/41_effects.md R131): a byte of the snapshot, or any value. -/
inductive NeighbourByte where
  | byte (k : Nat)
  | any
deriving DecidableEq, Repr

/-- `LAST_SRC`, the neighbour of the last element in smear (R8, R131). `literal` gives `src(0)`, `src(1)`, `src(2)`. -/
inductive LastSrc where
  | symmetric
  | literal (red green blue : NeighbourByte)
deriving DecidableEq, Repr

/-- The parameters of R8, in the table's order. -/
structure Params where
  n : Nat := 50
  wTick : Nat
  fNum : Nat := 1
  fDen : Nat := 20
  decayA : Nat := 1
  flkLo : Nat := 5
  flkHi : Nat := 15
  tTickMs : Nat := 15
  tGapMs : Nat := 1
  bitDelayUs : Nat := 0
  byteDelayUs : Nat := 0
  lastSrc : LastSrc := .symmetric
  flkSat : Nat := 255
deriving DecidableEq, Repr

/-- A literal byte index lies inside the snapshot (R131). -/
def NeighbourByte.legal (size : Nat) : NeighbourByte → Bool
  | .byte k => decide (k < size)
  | .any => true

/-- `LAST_SRC` is legal when each literal byte index lies inside the snapshot (R131). -/
def LastSrc.legal (size : Nat) : LastSrc → Bool
  | .symmetric => true
  | .literal r g b => r.legal size && g.legal size && b.legal size

/-- The legal ranges of R8. -/
def Params.legal (p : Params) : Bool :=
  decide (2 ≤ p.n) && decide (3 * p.n ≤ 4294967295)
    && decide (2 ≤ p.wTick) && decide (p.wTick ≤ 32)
    && decide (2 * p.fNum ≤ p.fDen) && decide (1 ≤ p.fDen)
    && decide (p.decayA ≤ 255)
    && decide (p.flkLo < p.flkHi) && decide (p.flkHi ≤ 256)
    && p.lastSrc.legal (3 * p.n)
    && decide (p.flkSat = 255)

/-- A configuration: parameters together with the proof that they are legal, so that an illegal one cannot be
built (R10). -/
structure Config extends Params where
  legal : toParams.legal = true
deriving DecidableEq, Repr

/-- Construction from a record; a record outside the legal ranges is refused (R10). -/
def Config.make? (p : Params) : Option Config :=
  if h : p.legal = true then some { toParams := p, legal := h } else none

/-- The defaults of R8 with `W_TICK = 32`. R9 leaves W_TICK open: 32 is a DESIGN CHOICE of this one record, unsafe
for a claim about it alone (log 1); a claim over every `Config` holds for every width. -/
def Config.default : Config :=
  { toParams := { wTick := 32 }, legal := by decide }

/-- The value the environment supplies for the draw with the given number when the RAND channel holds no answer yet:
a free value, with no law (R38, spec/93_implementation_defined.md U3; log 4). -/
opaque Config.freeDraw : Nat → Nat

end Sys2Proof
end

