-- ==== Sys2Proof/Machine/State.lean ====
section
/-! DEFINITION. The machine's state (spec/10_state.md), the reasons a step can stop, and the state after reset
(spec/70_reset_and_hazards.md R251). -/

namespace Sys2Proof.Machine

/-- The MODE latch (R34): MODE = 0 is autonomous, MODE = 1 is test. -/
inductive Mode where
  | autonomous
  | test
deriving DecidableEq, Repr

/-- An event of the trace (R13, R36); a line level is a `Bool`, `true` for 1. -/
inductive Event where
  | clk (level : Bool)
  | dat (level : Bool)
  | delayMs (n : Nat)
  | delayUs (n : Nat)
deriving DecidableEq, Repr

/-- A response present at the port (R39): RESP and RESP_ERR. -/
structure Response where
  value : Word
  err : Bool
deriving DecidableEq, Repr

/-- What is left of an operation once its last event is out: the response of TRANSMIT (spec/42_transmitter.md R165), the
increment and the response of TICK (spec/43_scheduler.md R183), the increment in the autonomous loop (R186). -/
inductive Ending where
  | transmit
  | tick (gated fired : Bool)
  | loop
deriving DecidableEq, Repr

/-- A pending delay and the position inside the running operation (R22, R37, R41): the delay requested and not yet
completed, the events still to emit, and how the operation ends. -/
structure Pending where
  delay : Event
  rest : List Event
  ending : Ending
deriving DecidableEq, Repr

/-- One move of the environment (R43): it makes none, offers a command, resets the block with a level of the TEST_MODE
pin, or completes the pending delay and says how many of the next delays it completes at once (`State.hold`, log 19).
DESIGN CHOICE: one move per step (log 7). -/
inductive EnvMove where
  | quiet
  | command (cmd arg : Word)
  | reset (testMode : Bool)
  | delayDone (hold : Option Nat)
deriving DecidableEq, Repr

/-- A byte array (R23, R25) as the cells that do not read as `Memory.unlisted`, addresses strictly rising. -/
structure Memory where
  cells : List Host.Cell
deriving DecidableEq, Repr

/-- What an address that no cell lists reads as: 0, the Frame Buffer's reset value (R23). -/
def Memory.unlisted : Byte := 0

/-- Reasons the machine stops with a fault. There is none: the spec's errors are answers of the command port
(spec/60_exceptions.md R221), and a block whose delay is never completed waits, stuck, in a state (log 6, log 13). -/
inductive Fault
deriving DecidableEq, Repr

/-- Reasons a step is refused. -/
inductive Refusal where
  /-- Raised by `exec` for an instruction that has no meaning yet; safe, since nothing runs. Every instruction has
  its meaning, so no arm raises it. -/
  | notModelled (mnemonic : String)
deriving DecidableEq, Repr

/-- The state of the block, then the model's own fields. -/
structure State where
  /-- The configuration record (R42: no state of the block); no step changes it (log 1). -/
  cfg : Config
  /-- FB, the Frame Buffer (R23). -/
  fb : Memory
  /-- SCR, the scratch buffer (R25). -/
  scr : Memory
  /-- SCR_ALLOC (R25). -/
  scrAlloc : Bool
  /-- TICK, W_TICK bits in the low part of the word (R26). -/
  tick : Word
  /-- LAST_EVENT, W_TICK bits in the low part of the word (R27). -/
  lastEvent : Word
  /-- STATUS.ERR (R28). -/
  err : Bool
  /-- STATUS.FIRST_ERR (R28). -/
  firstErr : BitVec 4
  /-- The MODE latch (R34). -/
  mode : Mode
  /-- CLK, the level of the clock line (R35). -/
  clk : Bool
  /-- DAT, the level of the data line (R35). -/
  dat : Bool
  /-- The trace since reset, oldest event first (R36). -/
  trace : List Event
  /-- The response at the port: none when RESP_VALID = 0 (R39; log 9). -/
  response : Option Response
  /-- The pending delay of the running operation (R37, R41): none when no operation is running. A block that holds one is
  `stuck` until the environment completes it or resets the block (R43, spec/93_implementation_defined.md U21; log 6). -/
  pending : Option Pending
  /-- The model's own field: how many of the delays requested from here on the environment completes at once before it
  keeps one waiting; none when it completes every one, as its duty is (R37, R43; log 19). -/
  hold : Option Nat
  /-- The model's own field: the moves the environment is going to make, one per step; quiet when none is left (log 7). -/
  env : List EnvMove
  /-- The model's own field: the answers already on the RAND channel, oldest first (R38, R39; log 4). -/
  rand : List Nat
  /-- The model's own field: the number of draws taken (log 4). -/
  drawCount : Nat
deriving DecidableEq, Repr

/-- The state right after RESET_N goes high with the given TEST_MODE level (R250, R251), the environment having
nothing scheduled. SCR at 0 is a DESIGN CHOICE, unsafe (log 3). -/
def State.resetWith (cfg : Config) (testMode : Bool) : State where
  cfg := cfg
  fb := { cells := [] }
  scr := { cells := [] }
  scrAlloc := false
  tick := 0
  lastEvent := 0
  err := false
  firstErr := 0
  mode := if testMode then .test else .autonomous
  clk := false
  dat := false
  trace := []
  response := none
  pending := none
  hold := none
  env := []
  rand := []
  drawCount := 0

/-- The machine right after reset, with the default configuration (log 1) and the TEST_MODE strap high: a DESIGN
CHOICE, unsafe (log 2). -/
def State.reset : State := State.resetWith Config.default true

end Sys2Proof.Machine
end

