-- ==== Sys2Proof/Machine/Flags.lean ====
section
/-! DEFINITION. The status word, the line register, the error codes and the outcome bits (spec/10_state.md R28, R30,
R32; spec/60_exceptions.md R220). The block has no condition codes (R32). -/

namespace Sys2Proof.Machine

/-- The error codes of R220. -/
def errorCode : CmdError → BitVec 4
  | .illegalOpcode => 1
  | .reservedNonzero => 2
  | .badReg => 3
  | .indexRange => 4
  | .addrRange => 5
  | .drawRange => 6

/-- MODE as a bit (R34). -/
def modeBit : Mode → Bool
  | .autonomous => false
  | .test => true

/-- STATUS (R28): bits 31:10 zero, SCR_ALLOC, MODE, FIRST_ERR in 7:4, 3:1 zero, ERR. -/
def statusWord (s : State) : Word :=
  (0 : BitVec 22) ++ BitVec.ofBool s.scrAlloc ++ BitVec.ofBool (modeBit s.mode) ++ s.firstErr
    ++ (0 : BitVec 3) ++ BitVec.ofBool s.err

/-- LINES (R30): bits 31:2 zero, DAT, CLK. -/
def linesWord (s : State) : Word :=
  (0 : BitVec 30) ++ BitVec.ofBool s.dat ++ BitVec.ofBool s.clk

/-- The response of a stage command, `zext_32` of its outcome bit (R32). -/
def outcomeWord (outcome : Bool) : Word :=
  (0 : BitVec 31) ++ BitVec.ofBool outcome

/-- The response of TICK, `{30'b0, gated, fired}` (spec/43_scheduler.md R183). -/
def tickWord (gated fired : Bool) : Word :=
  (0 : BitVec 30) ++ BitVec.ofBool gated ++ BitVec.ofBool fired

/-- The gate of smear and decay: TICK mod 3 = 0 (R16, spec/41_effects.md R130, R140). -/
def gateOpen (s : State) : Bool := decide (s.tick.toNat % 3 = 0)

end Sys2Proof.Machine
end

