-- ==== Sys2Proof/Machine/Ops.lean ====
section
/-! DEFINITION. The named operations over memory, the trace, the draws and the command port: byte access
(spec/00_scope.md R13), emitting (spec/10_state.md R35 to R37), drawing (R38), responding, raising an error
(spec/60_exceptions.md R221) and reset (spec/70_reset_and_hazards.md R250). -/

namespace Sys2Proof.Machine

/-! ## Byte arrays -/

/-- The byte at an address of a list of cells. -/
def lookupCell : List Host.Cell → Nat → Byte
  | [], _ => Memory.unlisted
  | (k, v) :: rest, a => if a = k then v else lookupCell rest a

/-- `FB[a]` (R13). -/
def Memory.read (m : Memory) (a : Nat) : Byte := lookupCell m.cells a

/-- Put a byte into a list of cells with rising addresses; the value an unlisted address reads as removes the cell. -/
def insertCell : List Host.Cell → Nat → Byte → List Host.Cell
  | [], a, v => if v = Memory.unlisted then [] else [(a, v)]
  | (k, w) :: rest, a, v =>
    if a < k then (if v = Memory.unlisted then (k, w) :: rest else (a, v) :: (k, w) :: rest)
    else if a = k then (if v = Memory.unlisted then rest else (a, v) :: rest)
    else (k, w) :: insertCell rest a v

/-- `FB[a] <- v` (R13). -/
def Memory.write (m : Memory) (a : Nat) (v : Byte) : Memory := { cells := insertCell m.cells a v }

/-- The cells of the values `f a` for the `count` addresses from `start` on. -/
def cellsOf (f : Nat → Byte) : Nat → Nat → List Host.Cell
  | _, 0 => []
  | start, count + 1 =>
    if f start = Memory.unlisted then cellsOf f (start + 1) count
    else (start, f start) :: cellsOf f (start + 1) count

/-- `for a in 0 .. size - 1: FB[a] <- f a`, with `f` fixed before the loop (R130, R140). -/
def Memory.writeAll (m : Memory) (size : Nat) (f : Nat → Byte) : Memory :=
  { cells := cellsOf f 0 size ++ m.cells.filter (fun c => decide (size ≤ c.1)) }

/-- Addresses rise strictly from `lo` on and no cell holds the value an unlisted address reads as. -/
def canonicalFrom : Nat → List Host.Cell → Bool
  | _, [] => true
  | lo, (k, v) :: rest => decide (lo ≤ k) && decide (v ≠ Memory.unlisted) && canonicalFrom (k + 1) rest

/-- The canonical form of a byte array, in which equal arrays are equal data. -/
def Memory.wf (m : Memory) : Bool := canonicalFrom 0 m.cells

/-- Every listed address lies below `size`: the array has no byte outside [0, size) (R24). -/
def Memory.below (m : Memory) (size : Nat) : Bool := m.cells.all (fun c => decide (c.1 < size))

/-- The size of FB and of SCR in bytes, 3·N (R23, R25). -/
def State.size (s : State) : Nat := 3 * s.cfg.n

/-- Write a color into the three channels of element `e` (R105, R121): R at 3e, G at 3e+1, B at 3e+2. -/
def Memory.writeElement (m : Memory) (e : Nat) (c : Rgb) : Memory :=
  ((m.write (3 * e) c.r).write (3 * e + 1) c.g).write (3 * e + 2) c.b

/-! ## Draws (R38) -/

/-- `Draw(lo, hi)`: the next answer on the RAND channel, or a free value of the range where the channel holds no
answer yet, or holds one outside the range, which is a move the environment never makes (R43; log 4, log 5). -/
def State.drawValue (s : State) (lo hi : Nat) : Nat :=
  match s.rand with
  | [] => lo + Config.freeDraw s.drawCount % (hi - lo)
  | r :: _ => if lo ≤ r ∧ r < hi then r else lo + Config.freeDraw s.drawCount % (hi - lo)

/-- The state after one draw. -/
def State.afterDraw (s : State) : State :=
  { s with rand := s.rand.tail, drawCount := s.drawCount + 1 }

/-! ## The trace and the lines (R35, R36, R58) -/

/-- The clock level after a list of events, from level `level`. -/
def clkAfter : Bool → List Event → Bool
  | level, [] => level
  | _, .clk b :: rest => clkAfter b rest
  | level, .dat _ :: rest => clkAfter level rest
  | level, .delayMs _ :: rest => clkAfter level rest
  | level, .delayUs _ :: rest => clkAfter level rest

/-- The data level after a list of events, from level `level`. -/
def datAfter : Bool → List Event → Bool
  | level, [] => level
  | _, .dat b :: rest => datAfter b rest
  | level, .clk _ :: rest => datAfter level rest
  | level, .delayMs _ :: rest => datAfter level rest
  | level, .delayUs _ :: rest => datAfter level rest

/-- `Emit(e)` for each event in order: it is appended to the trace, and a line write sets its line (R35). -/
def State.emit (s : State) (events : List Event) : State :=
  { s with
    trace := s.trace ++ events
    clk := clkAfter s.clk events
    dat := datAfter s.dat events }

/-- A millisecond delay request; none for duration 0 (R37). -/
def delayMsEvents (n : Nat) : List Event := if n = 0 then [] else [.delayMs n]

/-- A microsecond delay request; none for duration 0 (R37). -/
def delayUsEvents (n : Nat) : List Event := if n = 0 then [] else [.delayUs n]

/-- A delay request, as against a line write (R36, R37). -/
def Event.isDelay : Event → Bool
  | .clk _ => false
  | .dat _ => false
  | .delayMs _ => true
  | .delayUs _ => true

/-! ## The command port -/

/-- `respond(v)`: RESP = v with RESP_ERR = 0 (R13). -/
def State.respond (s : State) (v : Word) : State :=
  { s with response := some { value := v, err := false } }

/-- The answer RESP = 0, RESP_ERR = 1 to a command that is not executed; no other change (R224, R226). -/
def State.turnAway (s : State) : State :=
  { s with response := some { value := 0, err := true } }

/-- `raise Error(code)` (R221), the block's trap entry: RESP = 0, RESP_ERR = 1, and STATUS.ERR and STATUS.FIRST_ERR
are set if ERR was 0. There is no saved pc, handler or mode change. -/
def State.raise (s : State) (e : CmdError) : State :=
  { s with
    response := some { value := 0, err := true }
    err := true
    firstErr := if s.err then s.firstErr else errorCode e }

/-- Reset (R250, R251), the only return from the faulted state (R225): every piece of the block's state takes its
reset value, a running operation is abandoned, and the MODE latch samples the pin. The configuration, the environment's
remaining moves and the draws are no state of the block and stay (R42, R43; log 10). -/
def State.powerOn (s : State) (testMode : Bool) : State :=
  { State.resetWith s.cfg testMode with env := s.env, rand := s.rand, drawCount := s.drawCount, hold := s.hold }

/-- CMD_READY = 0: in test mode an operation is executing (spec/10_state.md R40). -/
def State.busy (s : State) : Bool :=
  match s.mode with
  | .autonomous => false
  | .test => s.pending.isSome

/-- Whether a ready port executes a command: in test mode (R226), and while faulted only one that inspects (R224). -/
def State.admits (s : State) (inspects : Bool) : Bool :=
  match s.mode with
  | .autonomous => false
  | .test => !s.err || inspects

/-- A command offered at the port: not taken while CMD_READY = 0 (R39, R40); otherwise run if admitted, and answered
without execution if not (R224, R226). -/
def State.command (s : State) (inspects : Bool) (run : State → State) : State :=
  if s.busy then s else if s.admits inspects then run s else s.turnAway

/-- A command word that decodes to no command (R75): its error is raised; in autonomous mode it is answered like every
other command (R226), and a port that is not ready does not take it (R40). While faulted `raise` leaves STATUS as it is,
as R224 says (log 12). -/
def State.rejectWord (s : State) (e : CmdError) : State :=
  if s.busy then s
  else
    match s.mode with
    | .autonomous => s.turnAway
    | .test => s.raise e

/-- The environment's next move; quiet when none is scheduled (R43; log 7). -/
def State.nextMove (s : State) : EnvMove :=
  match s.env with
  | [] => .quiet
  | m :: _ => m

/-- The state once the environment's next move is taken from the schedule. -/
def State.afterMove (s : State) : State := { s with env := s.env.tail }

end Sys2Proof.Machine
end

