-- ==== Sys2Proof/Machine/Operands.lean ====
section
/-! DEFINITION. Operand checks, the W_TICK-bit arithmetic and the register map (spec/10_state.md R31,
spec/20_memory.md R54, spec/00_scope.md R12). -/

namespace Sys2Proof.Machine

/-- `wrapW(x) = x mod 2^W_TICK` (R12). Sums and differences of 32-bit words wrap at a multiple of `2^W_TICK`, so
wrapping them once more gives their value modulo `2^W_TICK`. -/
def State.wrapW (s : State) (x : Word) : Word := BitVec.ofNat 32 (x.toNat % 2 ^ s.cfg.wTick)

/-- An element index is valid iff it is below N (R54). -/
def State.validIndex (s : State) (idx : Word) : Bool := decide (idx.toNat < s.cfg.n)

/-- A byte address is valid iff it is below 3·N (R54). -/
def State.validAddr (s : State) (addr : Word) : Bool := decide (addr.toNat < s.size)

/-- An interval draw is valid iff it lies in [FLK_LO, FLK_HI) (R124). -/
def State.validDraw (s : State) (r : Byte) : Bool :=
  decide (s.cfg.flkLo ≤ r.toNat) && decide (r.toNat < s.cfg.flkHi)

/-- The value of a register (R31, R204); none for a reserved number. -/
def State.readReg (s : State) (reg : BitVec 4) : Option Word :=
  match reg.toNat with
  | 0 => some s.tick
  | 1 => some s.lastEvent
  | 2 => some (statusWord s)
  | 3 => some (BitVec.ofNat 32 s.cfg.n)
  | 4 => some (BitVec.ofNat 32 s.cfg.wTick)
  | 5 => some (linesWord s)
  | _ => none

/-- The state after a register write (R31, R205); none for a read-only or reserved number. -/
def State.writeReg (s : State) (reg : BitVec 4) (value : Word) : Option State :=
  match reg.toNat with
  | 0 => some { s with tick := s.wrapW value }
  | 1 => some { s with lastEvent := s.wrapW value }
  | _ => none

end Sys2Proof.Machine
end

