-- ==== Sys2Proof/Machine/Access.lean ====
section
/-! DEFINITION. The test access commands NOP, RDBUF, WRBUF, RDREG, WRREG (spec/44_host_access.md). -/

namespace Sys2Proof.Machine

/-- NOP (R200). -/
def execNop (s : State) : Host.Outcome State Fault Refusal :=
  .next (s.command false fun s => s.respond 0)

/-- RDBUF (R202), admitted while faulted (R224). -/
def execRdbuf (addr : Word) (s : State) : Host.Outcome State Fault Refusal :=
  .next (s.command true fun s =>
    if s.validAddr addr then s.respond ((s.fb.read addr.toNat).setWidth 32) else s.raise .addrRange)

/-- WRBUF (R203). -/
def execWrbuf (addr : Word) (data : Byte) (s : State) : Host.Outcome State Fault Refusal :=
  .next (s.command false fun s =>
    if s.validAddr addr then { s with fb := s.fb.write addr.toNat data }.respond 0 else s.raise .addrRange)

/-- RDREG (R204), admitted while faulted (R224). -/
def execRdreg (reg : BitVec 4) (s : State) : Host.Outcome State Fault Refusal :=
  .next (s.command true fun s =>
    match s.readReg reg with
    | some v => s.respond v
    | none => s.raise .badReg)

/-- WRREG (R205). -/
def execWrreg (reg : BitVec 4) (value : Word) (s : State) : Host.Outcome State Fault Refusal :=
  .next (s.command false fun s =>
    match s.writeReg reg value with
    | some t => t.respond 0
    | none => s.raise .badReg)

end Sys2Proof.Machine
end

