-- ==== Sys2Proof/Machine/Color.lean ====
section
/-! DEFINITION. The Color Model and its commands HSV and PAINT (spec/40_color_model.md). -/

namespace Sys2Proof.Machine

/-- `Color(hue, sat)` (R101), computed in integers and narrowed to bytes at the end. The zero-saturation branch stores
1023 in 8 bits (R103); the sector table is R101's own (log 14). -/
def color (hue sat : Byte) : Rgb :=
  if sat = 0 then
    { r := BitVec.ofNat 8 (1023 % 256), g := BitVec.ofNat 8 (1023 % 256), b := BitVec.ofNat 8 (1023 % 256) }
  else
    let h6 := 6 * hue.toNat
    let fn := h6 % 256
    let cv : Byte := 0
    let cp : Byte := sat
    let cq : Byte := BitVec.ofNat 8 (sat.toNat * fn / 256)
    let ct : Byte := BitVec.ofNat 8 (sat.toNat * (256 - fn) / 256)
    match h6 / 256 with
    | 0 => { r := cv, g := ct, b := cp }
    | 1 => { r := cq, g := cv, b := cp }
    | 2 => { r := cp, g := cv, b := ct }
    | 3 => { r := cp, g := cq, b := cv }
    | 4 => { r := ct, g := cp, b := cv }
    | _ => { r := cv, g := cp, b := cq }

/-- A color in a response word, `{0x00, R, G, B}` (spec/20_memory.md R51). -/
def colorWord (c : Rgb) : Word := (0 : Byte) ++ c.r ++ c.g ++ c.b

/-- HSV (R104). -/
def execHsv (hue sat : Byte) (s : State) : Host.Outcome State Fault Refusal :=
  .next (s.command false fun s => s.respond (colorWord (color hue sat)))

/-- PAINT (R105): the index is checked before any write. -/
def execPaint (idx : Word) (hue sat : Byte) (s : State) : Host.Outcome State Fault Refusal :=
  .next (s.command false fun s =>
    if s.validIndex idx then
      { s with fb := s.fb.writeElement idx.toNat (color hue sat) }.respond (colorWord (color hue sat))
    else s.raise .indexRange)

end Sys2Proof.Machine
end

