-- ==== Sys2Proof/Machine/Effects.lean ====
section
/-! DEFINITION. The Effect Pipeline: flicker, smear and decay as stage functions, and the commands FLICKER, FLICKERX,
SMEAR and DECAY (spec/41_effects.md). -/

namespace Sys2Proof.Machine

/-- The outcome bit of a stage and the state after it. -/
structure StageResult where
  outcome : Bool
  state : State
deriving DecidableEq, Repr

/-! ## Flicker -/

/-- A draw source `src` (R121): the environment, or the operands of FLICKERX (R124). -/
inductive DrawSource where
  | env
  | operands (interval index hue : Nat)
deriving DecidableEq, Repr

/-- `src.interval()` (R123, R124). -/
def DrawSource.interval (src : DrawSource) (s : State) : Nat :=
  match src with
  | .env => s.drawValue s.cfg.flkLo s.cfg.flkHi
  | .operands r _ _ => r

/-- `src.index()` (R123, R124). -/
def DrawSource.index (src : DrawSource) (s : State) : Nat :=
  match src with
  | .env => s.drawValue 0 s.cfg.n
  | .operands _ e _ => e

/-- `src.hue()` (R123, R124). -/
def DrawSource.hue (src : DrawSource) (s : State) : Nat :=
  match src with
  | .env => s.drawValue 0 256
  | .operands _ _ h => h

/-- The state once the source has supplied one value: an environment draw is used up, an operand is not. -/
def DrawSource.after (src : DrawSource) (s : State) : State :=
  match src with
  | .env => s.afterDraw
  | .operands _ _ _ => s

/-- `d = wrapW(TICK - LAST_EVENT)` (R121). -/
def flickerDistance (s : State) : Nat := (s.wrapW (s.tick - s.lastEvent)).toNat

/-- The color a flicker with the given hue writes, at saturation code FLK_SAT (R121). -/
def flickerColor (s : State) (hue : Nat) : Rgb :=
  color (BitVec.ofNat 8 hue) (BitVec.ofNat 8 s.cfg.flkSat)

/-- `FlickerStage(src)` (R121): interval, then on firing index and hue, in that order. -/
def flickerStage (src : DrawSource) (s : State) : StageResult :=
  let s1 := src.after s
  if flickerDistance s > src.interval s then
    let s2 := src.after s1
    let s3 := src.after s2
    { outcome := true
      state := { s3 with
        fb := s3.fb.writeElement (src.index s1) (flickerColor s (src.hue s2))
        lastEvent := s.tick } }
  else { outcome := false, state := s1 }

/-- FLICKER (R123). -/
def execFlicker (s : State) : Host.Outcome State Fault Refusal :=
  .next (s.command false fun s =>
    let r := flickerStage .env s
    r.state.respond (outcomeWord r.outcome))

/-- FLICKERX (R124): the index is checked, then the interval, before the stage reads any state. -/
def execFlickerx (idx : Word) (hue rdraw : Byte) (s : State) : Host.Outcome State Fault Refusal :=
  .next (s.command false fun s =>
    if s.validIndex idx then
      if s.validDraw rdraw then
        let r := flickerStage (.operands rdraw.toNat idx.toNat hue.toNat) s
        r.state.respond (outcomeWord r.outcome)
      else s.raise .drawRange
    else s.raise .indexRange)

/-! ## Smear -/

/-- The draws `LastSrc` takes: one for a channel whose source is `ANY` (R131). -/
def afterNeighbour (src : NeighbourByte) (s : State) : State :=
  match src with
  | .byte _ => s
  | .any => s.afterDraw

/-- The value of a literal neighbour (R131): a byte of the snapshot, or a fresh draw `Draw(0, 256)`. -/
def neighbourValue (src : NeighbourByte) (s : State) : Nat :=
  match src with
  | .byte k => (s.scr.read k).toNat
  | .any => s.drawValue 0 256

/-- `LastSrc(c)` for c = 0, 1, 2, read after the snapshot (R131). -/
structure LastValues where
  red : Nat
  green : Nat
  blue : Nat
deriving DecidableEq, Repr

/-- The three neighbour values of the last element (R131). The draws of `ANY` channels are taken in the order c = 0, 1, 2:
DESIGN CHOICE (log 15). -/
def lastValues (s : State) : LastValues :=
  match s.cfg.lastSrc with
  | .symmetric =>
    { red := (s.scr.read (3 * (s.cfg.n - 2))).toNat
      green := (s.scr.read (3 * (s.cfg.n - 2) + 1)).toNat
      blue := (s.scr.read (3 * (s.cfg.n - 2) + 2)).toNat }
  | .literal r g b =>
    { red := neighbourValue r s
      green := neighbourValue g (afterNeighbour r s)
      blue := neighbourValue b (afterNeighbour g (afterNeighbour r s)) }

/-- The state after the draws of the last element's neighbours (R131). -/
def afterLastValues (s : State) : State :=
  match s.cfg.lastSrc with
  | .symmetric => s
  | .literal r g b => afterNeighbour b (afterNeighbour g (afterNeighbour r s))

/-- `LastSrc(c)` as a function of the channel. -/
def LastValues.channel (v : LastValues) (c : Nat) : Nat :=
  match c with
  | 0 => v.red
  | 1 => v.green
  | _ => v.blue

/-- The new value of byte `a` from the snapshot (R130): channel `a mod 3` of element `a div 3`, the weighted sum of the
element and its neighbours divided by F_DEN, narrowed to a byte. -/
def smearByte (p : Params) (scr : Memory) (last : LastValues) (a : Nat) : Byte :=
  let e := a / 3
  let c := a % 3
  let old := fun k => (scr.read k).toNat
  BitVec.ofNat 8
    (if e = 0 then ((p.fDen - p.fNum) * old c + p.fNum * old (3 + c)) / p.fDen
     else if e = p.n - 1 then
       ((p.fDen - p.fNum) * old (3 * (p.n - 1) + c) + p.fNum * last.channel c) / p.fDen
     else
       ((p.fDen - 2 * p.fNum) * old (3 * e + c) + p.fNum * old (3 * (e - 1) + c)
         + p.fNum * old (3 * (e + 1) + c)) / p.fDen)

/-- The snapshot of a smear pass (R130, R132): SCR_ALLOC <- 1 and SCR <- FB. -/
def takeSnapshot (s : State) : State :=
  { s with scrAlloc := true, scr := s.scr.writeAll s.size s.fb.read }

/-- `SmearStage()` (R130). Every new value is computed from SCR, the snapshot (R132, R253). -/
def smearStage (s : State) : StageResult :=
  if gateOpen s then
    let s1 := takeSnapshot s
    let s2 := afterLastValues s1
    { outcome := true
      state := { s2 with fb := s2.fb.writeAll s.size (smearByte s.cfg.toParams s1.scr (lastValues s1)) } }
  else { outcome := false, state := s }

/-- SMEAR (R134). -/
def execSmear (s : State) : Host.Outcome State Fault Refusal :=
  .next (s.command false fun s =>
    let r := smearStage s
    r.state.respond (outcomeWord r.outcome))

/-! ## Decay -/

/-- The decay of one byte (R140): `v - A` if `v > A`, else 0. -/
def decayByte (amount : Nat) (v : Byte) : Byte :=
  if v.toNat > amount then BitVec.ofNat 8 (v.toNat - amount) else 0

/-- `DecayStage()` (R140). -/
def decayStage (s : State) : StageResult :=
  if gateOpen s then
    { outcome := true
      state := { s with fb := s.fb.writeAll s.size (fun a => decayByte s.cfg.decayA (s.fb.read a)) } }
  else { outcome := false, state := s }

/-- DECAY (R142). -/
def execDecay (s : State) : Host.Outcome State Fault Refusal :=
  .next (s.command false fun s =>
    let r := decayStage s
    r.state.respond (outcomeWord r.outcome))

end Sys2Proof.Machine
end

