-- ==== Sys2Proof/Machine/Operation.lean ====
section
/-! DEFINITION. Running an operation that requests delays: the environment completes each delay at once or keeps it
waiting, and a waiting operation goes on from its position when the delay completes (spec/10_state.md R37, R40, R41, R43;
log 6, log 19). -/

namespace Sys2Proof.Machine

/-- How far a list of events gets: those emitted, the delay kept waiting with the events after it, and the number of
delays the environment still completes at once. -/
structure Emission where
  sent : List Event
  held : Option (Event × List Event)
  hold : Option Nat
deriving DecidableEq, Repr

/-- Emit events until the environment keeps a delay waiting: a delay request is emitted, and nothing after it until it
is completed (R37). -/
def emission : Option Nat → List Event → Emission
  | hold, [] => { sent := [], held := none, hold := hold }
  | none, e :: rest => { sent := e :: rest, held := none, hold := none }
  | some k, e :: rest =>
    if e.isDelay then
      match k with
      | 0 => { sent := [e], held := some (e, rest), hold := none }
      | j + 1 =>
        let m := emission (some j) rest
        { m with sent := e :: m.sent }
    else
      let m := emission (some k) rest
      { m with sent := e :: m.sent }

/-- `TICK <- wrapW(TICK + 1)` (spec/43_scheduler.md R181, R184). -/
def State.countTick (s : State) : State := { s with tick := s.wrapW (s.tick + 1) }

/-- The end of an operation whose events are all out. -/
def State.finish (s : State) (ending : Ending) : State :=
  match ending with
  | .transmit => s.respond 0
  | .tick gated fired => s.countTick.respond (tickWord gated fired)
  | .loop => s.countTick

/-- Run the events of an operation to its end, or to the first delay that is kept waiting. -/
def State.runOperation (s : State) (events : List Event) (ending : Ending) : State :=
  let m := emission s.hold events
  let t := { s.emit m.sent with hold := m.hold }
  match m.held with
  | none => t.finish ending
  | some (delay, rest) => { t with pending := some { delay := delay, rest := rest, ending := ending } }

/-- The environment completes the pending delay, and the operation goes on; with none pending it only says what it does
with the delays to come (R43). -/
def State.completeDelay (s : State) (hold : Option Nat) : State :=
  match s.pending with
  | none => { s with hold := hold }
  | some p => { s with pending := none, hold := hold }.runOperation p.rest p.ending

end Sys2Proof.Machine
end

