-- ==== Sys2Proof/Machine/Transmitter.lean ====
section
/-! DEFINITION. The Serial Transmitter and its command TRANSMIT (spec/42_transmitter.md). -/

namespace Sys2Proof.Machine

/-- The events of one bit (R161): clock low, data, clock high, then the inter-bit hook (R162). -/
def bitEvents (p : Params) (b : Bool) : List Event :=
  [.clk false, .dat b, .clk true] ++ delayUsEvents p.bitDelayUs

/-- The events of one byte (R161): bits 7 down to 0, then the inter-byte hook (R162). -/
def byteEvents (p : Params) (v : Byte) : List Event :=
  [7, 6, 5, 4, 3, 2, 1, 0].flatMap (fun j => bitEvents p (v.getLsbD j)) ++ delayUsEvents p.byteDelayUs

/-- The events of the bytes at `count` addresses from `start` on, ascending (R161). -/
def bytesEvents (p : Params) (fb : Memory) : Nat → Nat → List Event
  | _, 0 => []
  | start, count + 1 => byteEvents p (fb.read start) ++ bytesEvents p fb (start + 1) count

/-- The events of one frame (R161, R163): every byte, then the clock forced low and the inter-frame gap. -/
def frameEvents (p : Params) (fb : Memory) : List Event :=
  bytesEvents p fb 0 (3 * p.n) ++ [.clk false] ++ delayMsEvents p.tGapMs

/-- TRANSMIT (R165): it reads FB and writes only the lines and the trace (R160). -/
def execTransmit (s : State) : Host.Outcome State Fault Refusal :=
  .next (s.command false fun s => s.runOperation (frameEvents s.cfg.toParams s.fb) .transmit)

end Sys2Proof.Machine
end

