-- ==== Sys2Proof/Machine/Scheduler.lean ====
section
/-! DEFINITION. The Scheduler: the tick operation, its command TICK, and what a step does when the environment is quiet
(spec/43_scheduler.md). -/

namespace Sys2Proof.Machine

/-- `(fired, gated)` and the state after the three stages of a tick (R181). -/
structure TickResult where
  fired : Bool
  gated : Bool
  state : State
deriving DecidableEq, Repr

/-- The stages of a tick: flicker, smear, decay, in that order (R57, R143, R181). -/
def tickStages (s : State) : TickResult :=
  let f := flickerStage .env s
  let m := smearStage f.state
  let d := decayStage m.state
  { fired := f.outcome, gated := m.outcome, state := d.state }

/-- The events of a tick (R181): the frame of the buffer after the stages, the clock forced low, the inter-tick wait. -/
def tickEvents (p : Params) (fb : Memory) : List Event :=
  frameEvents p fb ++ .clk false :: delayMsEvents p.tTickMs

/-- The events of a tick and the increment after them (R181), for a state after the stages. -/
def sendTick (s : State) (ending : Ending) : State := s.runOperation (tickEvents s.cfg.toParams s.fb) ending

/-- TICK (R183). -/
def execTick (s : State) : Host.Outcome State Fault Refusal :=
  .next (s.command false fun s =>
    let r := tickStages s
    sendTick r.state (.tick r.gated r.fired))

/-- A step in which the environment makes no move. A block with a delay pending waits and does nothing else (R37). One
with no operation running runs one tick operation in autonomous mode, whose results have no destination (R186), and
waits for a command in test mode (R251, R43). -/
def quietStep (s : State) : State :=
  match s.pending, s.mode with
  | some _, _ => s
  | none, .autonomous => sendTick (tickStages s).state .loop
  | none, .test => s

end Sys2Proof.Machine
end

