-- ==== Sys2Proof/Machine/Dispatch.lean ====
section
/-! DEFINITION. Dispatch: one arm per constructor of Instr. -/

namespace Sys2Proof.Machine

def exec (i : Instr) (s : State) : Host.Outcome State Fault Refusal :=
  match i with
  | .nop => Sys2Proof.Machine.execNop s
  | .hsv hue sat => Sys2Proof.Machine.execHsv hue sat s
  | .paint idx hue sat => Sys2Proof.Machine.execPaint idx hue sat s
  | .flicker => Sys2Proof.Machine.execFlicker s
  | .flickerx idx hue rdraw => Sys2Proof.Machine.execFlickerx idx hue rdraw s
  | .smear => Sys2Proof.Machine.execSmear s
  | .decay => Sys2Proof.Machine.execDecay s
  | .transmit => Sys2Proof.Machine.execTransmit s
  | .tick => Sys2Proof.Machine.execTick s
  | .rdbuf addr => Sys2Proof.Machine.execRdbuf addr s
  | .wrbuf addr data => Sys2Proof.Machine.execWrbuf addr data s
  | .rdreg reg => Sys2Proof.Machine.execRdreg reg s
  | .wrreg reg value => Sys2Proof.Machine.execWrreg reg value s

end Sys2Proof.Machine
end

