-- ==== Sys2Proof/Machine/Step.lean ====
section
/-! DEFINITION. One step of the block: the environment's next move, and what the block does with it
(spec/10_state.md R40, R43; spec/00_scope.md R14). -/

namespace Sys2Proof.Machine

/-- A command pair taken from the port: decoded, then executed or answered with its error (R75). -/
def takeCommand (cmd arg : Word) (s : State) : Host.Outcome State Fault Refusal :=
  match decode cmd arg with
  | .ok i => exec i s
  | .error e => .next (s.rejectWord e)

/-- One atomic step (R14): one command, one reset, the completion of a delay, or, when the environment is quiet, one tick
operation in autonomous mode or a wait. -/
def step (s : State) : Host.Outcome State Fault Refusal :=
  match s.nextMove with
  | .quiet => .next (quietStep s.afterMove)
  | .command cmd arg => takeCommand cmd arg s.afterMove
  | .reset testMode => .next (s.afterMove.powerOn testMode)
  | .delayDone hold => .next (s.afterMove.completeDelay hold)

/-- The state in which the environment offers, as its very next move, the command whose words are the `nbits` bits of
`w` (CMD in bits 31:0, ARG in bits 63:32), to a block in test mode with no operation running, where commands execute
(R34, R40; log 11). -/
def State.withFetchWord (s : State) (nbits w : Nat) : State :=
  let v := w % 2 ^ nbits
  { s with
    mode := .test
    pending := none
    env := .command (BitVec.ofNat 32 v) (BitVec.ofNat 32 (v / 2 ^ 32)) :: s.env }

end Sys2Proof.Machine
end

