-- ==== Sys2Proof/Machine/Assembler.lean ====
section
/-! DEFINITION. The assembler of command sequences (spec/30_encoding.md R76, R77): the text of a line, the expansion of
pseudo-instructions, and the words written. It is a tool of the environment, not state of the block. -/

namespace Sys2Proof.Machine

/-- The number of a register operand (R76, spec/10_state.md R31). -/
def regNumber : RegOperand → Nat
  | .number n => n
  | .name .tick => 0
  | .name .lastEvent => 1
  | .name .status => 2
  | .name .cfgN => 3
  | .name .cfgTickW => 4
  | .name .lines => 5

/-- `WRBUF addr, data` for numbers (R76). -/
def writeByteInstr (addr data : Nat) : Instr := .wrbuf (BitVec.ofNat 32 addr) (BitVec.ofNat 8 data)

/-- `RDBUF addr` for a number (R76). -/
def readByteInstr (addr : Nat) : Instr := .rdbuf (BitVec.ofNat 32 addr)

/-- The commands of a line for a strip of `n` elements: the one it names (R76), or its expansion (R77). -/
def asmInstrs (n : Nat) : Asm → List Instr
  | .nop => [.nop]
  | .hsv hue sat => [.hsv (BitVec.ofNat 8 hue) (BitVec.ofNat 8 sat)]
  | .paint idx hue sat => [.paint (BitVec.ofNat 32 idx) (BitVec.ofNat 8 hue) (BitVec.ofNat 8 sat)]
  | .flicker => [.flicker]
  | .flickerx idx hue r => [.flickerx (BitVec.ofNat 32 idx) (BitVec.ofNat 8 hue) (BitVec.ofNat 8 r)]
  | .smear => [.smear]
  | .decay => [.decay]
  | .transmit => [.transmit]
  | .tick => [.tick]
  | .rdbuf addr => [readByteInstr addr]
  | .wrbuf addr data => [writeByteInstr addr data]
  | .rdreg reg => [.rdreg (BitVec.ofNat 4 (regNumber reg))]
  | .wrreg reg value => [.wrreg (BitVec.ofNat 4 (regNumber reg)) (BitVec.ofNat 32 value)]
  | .setrgb idx r g b =>
    [writeByteInstr (3 * idx) r, writeByteInstr (3 * idx + 1) g, writeByteInstr (3 * idx + 2) b]
  | .getrgb idx => [readByteInstr (3 * idx), readByteInstr (3 * idx + 1), readByteInstr (3 * idx + 2)]
  | .settick v => [.wrreg 0 (BitVec.ofNat 32 v)]
  | .setlast v => [.wrreg 1 (BitVec.ofNat 32 v)]
  | .stages => [.flicker, .smear, .decay]
  | .run k => List.replicate k .tick
  | .clearfb => (List.range (3 * n)).map (fun a => writeByteInstr a 0)

/-- The words of a line; a line with an operand that does not fit its field is rejected (R76). -/
def assemble (n : Nat) (line : Asm) : Option (List (Word × Word)) :=
  if line.wellFormed then some ((asmInstrs n line).map encode) else none

/-! ## The text of a line (R76); what counts as a space is a DESIGN CHOICE (log 17) -/

/-- A space between the parts of a line. -/
def isBlank (c : Char) : Bool := c = ' ' || c = '\t'

/-- The part of a line before its comment, which `;` starts. -/
def stripComment (line : List Char) : List Char := line.takeWhile (fun c => decide (c ≠ ';'))

/-- A part without the spaces around it. -/
def trimBlanks (part : List Char) : List Char :=
  ((part.dropWhile isBlank).reverse.dropWhile isBlank).reverse

/-- The parts of a list between commas. -/
def splitCommas : List Char → List (List Char)
  | [] => [[]]
  | c :: rest =>
    match splitCommas rest with
    | [] => [[c]]
    | part :: parts => if c = ',' then [] :: part :: parts else (c :: part) :: parts

/-- The value of a digit, decimal or hexadecimal. -/
def digitValue (c : Char) : Option Nat :=
  if '0' ≤ c ∧ c ≤ '9' then some (c.toNat - '0'.toNat)
  else if 'a' ≤ c ∧ c ≤ 'f' then some (c.toNat - 'a'.toNat + 10)
  else if 'A' ≤ c ∧ c ≤ 'F' then some (c.toNat - 'A'.toNat + 10)
  else none

/-- The value of a run of digits of a base, after the value read so far. -/
def digitsValue (base : Nat) : Nat → List Char → Option Nat
  | acc, [] => some acc
  | acc, c :: rest =>
    match digitValue c with
    | some d => if d < base then digitsValue base (base * acc + d) rest else none
    | none => none

/-- A number, decimal or hexadecimal with `0x` (R76). -/
def parseNumber : List Char → Option Nat
  | [] => none
  | '0' :: 'x' :: [] => none
  | '0' :: 'x' :: digits => digitsValue 16 0 digits
  | digits => digitsValue 10 0 digits

/-- A register operand: a name of R76 or a number. -/
def parseReg (part : List Char) : Option RegOperand :=
  if part = "TICK".toList then some (.name .tick)
  else if part = "LAST_EVENT".toList then some (.name .lastEvent)
  else if part = "STATUS".toList then some (.name .status)
  else if part = "CFG_N".toList then some (.name .cfgN)
  else if part = "CFG_TICKW".toList then some (.name .cfgTickW)
  else if part = "LINES".toList then some (.name .lines)
  else (parseNumber part).map .number

/-- All the numbers of a list of parts. -/
def parseNumbers : List (List Char) → Option (List Nat)
  | [] => some []
  | part :: parts =>
    match parseNumber part, parseNumbers parts with
    | some v, some vs => some (v :: vs)
    | _, _ => none

/-- A line with number operands only. -/
def numberLine (mnemonic : List Char) (operands : List Nat) : Option Asm :=
  match operands with
  | [] =>
    if mnemonic = "NOP".toList then some .nop
    else if mnemonic = "FLICKER".toList then some .flicker
    else if mnemonic = "SMEAR".toList then some .smear
    else if mnemonic = "DECAY".toList then some .decay
    else if mnemonic = "TRANSMIT".toList then some .transmit
    else if mnemonic = "TICK".toList then some .tick
    else if mnemonic = "STAGES".toList then some .stages
    else if mnemonic = "CLEARFB".toList then some .clearfb
    else none
  | [x] =>
    if mnemonic = "RDBUF".toList then some (.rdbuf x)
    else if mnemonic = "GETRGB".toList then some (.getrgb x)
    else if mnemonic = "SETTICK".toList then some (.settick x)
    else if mnemonic = "SETLAST".toList then some (.setlast x)
    else if mnemonic = "RUN".toList then some (.run x)
    else none
  | [x, y] =>
    if mnemonic = "HSV".toList then some (.hsv x y)
    else if mnemonic = "WRBUF".toList then some (.wrbuf x y)
    else none
  | [x, y, z] =>
    if mnemonic = "PAINT".toList then some (.paint x y z)
    else if mnemonic = "FLICKERX".toList then some (.flickerx x y z)
    else none
  | [x, y, z, w] => if mnemonic = "SETRGB".toList then some (.setrgb x y z w) else none
  | _ => none

/-- A line of RDREG or WRREG, whose first operand is a register. -/
def registerLine (mnemonic : List Char) (operands : List (List Char)) : Option Asm :=
  match operands with
  | [r] => if mnemonic = "RDREG".toList then (parseReg r).map .rdreg else none
  | [r, v] =>
    match parseReg r, parseNumber v with
    | some reg, some value => if mnemonic = "WRREG".toList then some (.wrreg reg value) else none
    | _, _ => none
  | _ => none

/-- The operands after a mnemonic, separated by commas; none where nothing follows it. -/
def operandParts (rest : List Char) : List (List Char) :=
  match trimBlanks rest with
  | [] => []
  | text => (splitCommas text).map trimBlanks

/-- The source line of a text: `some none` for a blank or comment line, `none` for a text that is no line (R76). -/
def parseLine (text : List Char) : Option (Option Asm) :=
  match trimBlanks (stripComment text) with
  | [] => some none
  | line =>
    let mnemonic := line.takeWhile (fun c => !isBlank c)
    let operands := operandParts (line.dropWhile (fun c => !isBlank c))
    match registerLine mnemonic operands, parseNumbers operands with
    | some a, _ => some (some a)
    | none, some numbers => (numberLine mnemonic numbers).map some
    | none, none => none

/-- The words of a text, one command per line (R76), for a strip of `n` elements; none where a line is rejected. -/
def assembleText (n : Nat) : List String → Option (List (Word × Word))
  | [] => some []
  | text :: rest =>
    match parseLine text.toList, assembleText n rest with
    | some none, some words => some words
    | some (some line), some words => (assemble n line).map (· ++ words)
    | _, _ => none

end Sys2Proof.Machine
end

