-- ==== Sys2Proof/Safety.lean ====
section
/-! DEFINITION. What claims about runs are stated in: a block that executes any command, and the invariant of every
state a run reaches. -/

namespace Sys2Proof.Machine

/-- In test mode, not faulted, no operation running: the port executes every command (spec/60_exceptions.md R224, R229;
spec/10_state.md R40). -/
def State.ready (s : State) : Prop := s.mode = .test ∧ s.err = false ∧ s.pending = none

/-- In test mode, faulted or not, no operation running: the port executes RDREG and RDBUF (R224). -/
def State.inspectable (s : State) : Prop := s.mode = .test ∧ s.pending = none

/-- The environment completes every delay at once: its duty (R37, R43; log 19). -/
def State.prompt (s : State) : Prop := s.hold = none

/-- The invariant of the block between steps. -/
structure State.Inv (s : State) : Prop where
  /-- FB is in canonical form and has no byte outside [0, 3·N) (spec/10_state.md R24). -/
  fbCanonical : s.fb.wf = true
  fbInside : s.fb.below s.size = true
  /-- The same of SCR (R25). -/
  scrCanonical : s.scr.wf = true
  scrInside : s.scr.below s.size = true
  /-- TICK and LAST_EVENT have W_TICK bits (R26, R27). -/
  tickFits : s.tick.toNat < 2 ^ s.cfg.wTick
  lastEventFits : s.lastEvent.toNat < 2 ^ s.cfg.wTick
  /-- FIRST_ERR is 0 while ERR = 0 (R28), and otherwise one of the codes 1 to 6 (spec/60_exceptions.md R220). -/
  noErrNoCode : s.err = false → s.firstErr = 0
  errHasCode : s.err = true → 1 ≤ s.firstErr.toNat ∧ s.firstErr.toNat ≤ 6
  /-- Only a block in test mode is ever faulted (R226). -/
  errInTestMode : s.err = true → s.mode = .test
  /-- CLK is low between operations (spec/42_transmitter.md R163, spec/70_reset_and_hazards.md R255), and what is left of
  a running operation takes it low. -/
  clkLow : s.pending = none → s.clk = false
  restEndsLow : ∀ p, s.pending = some p → clkAfter s.clk p.rest = false
  /-- A pending delay is the last event of the trace: the block emits nothing until it completes (R37). -/
  delayIsLast : ∀ p, s.pending = some p → p.delay.isDelay = true ∧ s.trace.getLast? = some p.delay
  /-- The running operation is a command in test mode and the loop's tick in autonomous mode, and no block with an
  operation running is faulted. -/
  endingFits : ∀ p, s.pending = some p → (p.ending = .loop ↔ s.mode = .autonomous)
  runningNotFaulted : s.pending ≠ none → s.err = false
  /-- Each line holds the last level the trace set on it, 0 if none (R35). -/
  clkIsLast : s.clk = clkAfter false s.trace
  datIsLast : s.dat = datAfter false s.trace

end Sys2Proof.Machine
end

