-- ==== Sys2Proof/Certificates/Slice0/Obligations.lean ====
section
/-! DEFINITION. The statements about the model. The words they are written in stand first, independent of the
meanings where a rule gives its own formula. -/

namespace Sys2Proof.Claims

open Sys2Proof.Machine

/-! ## The words the statements use -/

/-- A response without error (spec/00_scope.md R13). -/
def okResp (v : Word) : Option Response := some { value := v, err := false }

/-- RESP = 0, RESP_ERR = 1 (spec/60_exceptions.md R221). -/
def errResp : Option Response := some { value := 0, err := true }

/-- The state R221 gives for an error with this code. -/
def raised (s : State) (code : BitVec 4) : State :=
  { s with response := errResp, err := true, firstErr := if s.err then s.firstErr else code }

/-- OPC = CMD[31:24] (spec/30_encoding.md R71). -/
def opc (cmd : Word) : Nat := (cmd.extractLsb' 24 8).toNat

/-- A row of the formats R72: for every command word with this OPC and every ARG, the instruction where the reserved
bits are 0, and RESERVED_NONZERO where one of them is 1 (R75). -/
def rowDecodes (code : Nat) (reserved : Word) (i : Word → Word → Instr) : Prop :=
  ∀ cmd arg : Word, opc cmd = code →
    (cmd &&& reserved = 0 → decode cmd arg = .ok (i cmd arg)) ∧
    (cmd &&& reserved ≠ 0 → decode cmd arg = .error .reservedNonzero)

/-- `old[a]`, a byte of the Frame Buffer as a number. -/
def old (s : State) (a : Nat) : Nat := (s.fb.read a).toNat

/-- `d = (TICK - LAST_EVENT) mod 2^W_TICK` over the integers (R12, R121). -/
def distance (s : State) : Int := ((s.tick.toNat : Int) - s.lastEvent.toNat) % 2 ^ s.cfg.wTick

/-- The state after `k` draws. -/
def drawn (s : State) (k : Nat) : State := { s with rand := s.rand.drop k, drawCount := s.drawCount + k }

/-- Element `e` of the buffer holds the color, every other byte is as before. -/
def elementSet (s t : State) (e : Nat) (c : Rgb) : Prop :=
  ∀ a, t.fb.read a =
    if a = 3 * e then c.r else if a = 3 * e + 1 then c.g else if a = 3 * e + 2 then c.b else s.fb.read a

/-- The source of the last element's neighbour for channel `c`; none for SYMMETRIC (R131). -/
def sourceOf : LastSrc → Nat → Option NeighbourByte
  | .symmetric, _ => none
  | .literal r _ _, 0 => some r
  | .literal _ g _, 1 => some g
  | .literal _ _ b, _ => some b

/-- How many of the channels below `c` take a draw (R131). -/
def anyBelow (l : LastSrc) (c : Nat) : Nat :=
  ((List.range c).filter (fun k => decide (sourceOf l k = some .any))).length

/-- `LastSrc(c)` (R131), the draws of ANY channels in the order of the channels (log 15). -/
def lastNeighbour (s : State) (c : Nat) : Nat :=
  match sourceOf s.cfg.lastSrc c with
  | none => old s (3 * (s.cfg.n - 2) + c)
  | some (.byte k) => old s k
  | some .any => (drawn s (anyBelow s.cfg.lastSrc c)).drawValue 0 256

/-- The events of one frame in the words of R161. -/
def frame (p : Params) (fb : Memory) : List Event :=
  (List.range (3 * p.n)).flatMap (fun a =>
      (List.range 8).flatMap (fun k =>
        [Event.clk false, .dat ((fb.read a).getLsbD (7 - k)), .clk true]
          ++ (if p.bitDelayUs > 0 then [.delayUs p.bitDelayUs] else []))
      ++ (if p.byteDelayUs > 0 then [.delayUs p.byteDelayUs] else []))
    ++ [.clk false] ++ (if p.tGapMs > 0 then [.delayMs p.tGapMs] else [])

/-- What a receiver that samples DAT at each rising edge of CLK gets, from the given line levels. -/
def received : Bool → Bool → List Event → List Bool
  | _, _, [] => []
  | clk, dat, .clk b :: rest =>
    if b && !clk then dat :: received b dat rest else received b dat rest
  | clk, _, .dat b :: rest => received clk b rest
  | clk, dat, .delayMs _ :: rest => received clk dat rest
  | clk, dat, .delayUs _ :: rest => received clk dat rest

/-- DAT is written only while CLK = 0. -/
def datOnlyWhileLow : Bool → List Event → Bool
  | _, [] => true
  | _, .clk b :: rest => datOnlyWhileLow b rest
  | clk, .dat _ :: rest => !clk && datOnlyWhileLow clk rest
  | clk, .delayMs _ :: rest => datOnlyWhileLow clk rest
  | clk, .delayUs _ :: rest => datOnlyWhileLow clk rest

/-- A line write, as against a delay request (R36). -/
def isLineWrite : Event → Bool
  | .clk _ => true
  | .dat _ => true
  | .delayMs _ => false
  | .delayUs _ => false

/-- How many delays a list of events requests. -/
def delays (events : List Event) : Nat := events.countP (fun e => !isLineWrite e)

/-- The events of a tick after its frame (R181). -/
def tickTail (p : Params) : List Event := .clk false :: if p.tTickMs > 0 then [.delayMs p.tTickMs] else []

/-- Bit 1 of the response word of TICK: gated (R183). -/
def respondsGated (t : State) : Prop := ∃ v : Word, t.response = okResp v ∧ v.getLsbD 1 = true

/-- Bit 1 of the response word of TICK is 0. -/
def respondsUngated (t : State) : Prop := ∃ v : Word, t.response = okResp v ∧ v.getLsbD 1 = false

/-- The exact HSV model at V = 1 over the rationals: the standard six sectors (R101). -/
def exactHsv (h sat : ℚ) : ℚ × ℚ × ℚ :=
  let i := ⌊6 * h⌋
  let f := 6 * h - i
  let p := 1 - sat
  let q := 1 - sat * f
  let t := 1 - sat * (1 - f)
  if i = 0 then (1, t, p)
  else if i = 1 then (q, 1, p)
  else if i = 2 then (p, 1, t)
  else if i = 3 then (p, q, 1)
  else if i = 4 then (t, p, 1)
  else (1, p, q)

/-- The opcode map R74 as numbers: match and mask by OPC. -/
def opcodeMap : List (Nat × Nat) :=
  [(0x00000000, 0xFFFFFFFF), (0x01000000, 0xFFFF0000), (0x02000000, 0xFFFF0000), (0x03000000, 0xFFFFFFFF),
   (0x04000000, 0xFF00FF00), (0x05000000, 0xFFFFFFFF), (0x06000000, 0xFFFFFFFF), (0x07000000, 0xFFFFFFFF),
   (0x08000000, 0xFFFFFFFF), (0x09000000, 0xFFFFFFFF), (0x0A000000, 0xFFFFFF00), (0x0B000000, 0xFFFFFFF0),
   (0x0C000000, 0xFFFFFFF0)]

/-- The OPC of an instruction (R74). -/
def opcOf : Instr → Nat
  | .nop => 0
  | .hsv _ _ => 1
  | .paint _ _ _ => 2
  | .flicker => 3
  | .flickerx _ _ _ => 4
  | .smear => 5
  | .decay => 6
  | .transmit => 7
  | .tick => 8
  | .rdbuf _ => 9
  | .wrbuf _ _ => 10
  | .rdreg _ => 11
  | .wrreg _ _ => 12

/-- The error codes a command's own rule can raise (R223); RESERVED_NONZERO is raised at decoding. -/
def ownErrors : Instr → List Nat
  | .paint _ _ _ => [4]
  | .flickerx _ _ _ => [4, 6]
  | .rdbuf _ => [5]
  | .wrbuf _ _ => [5]
  | .rdreg _ => [3]
  | .wrreg _ _ => [3]
  | .nop => []
  | .hsv _ _ => []
  | .flicker => []
  | .smear => []
  | .decay => []
  | .transmit => []
  | .tick => []

/-- The commands that may write FB (spec/10_state.md R23). -/
def mayWriteFb (i : Instr) : Bool := opcOf i ∈ [2, 3, 4, 5, 6, 8, 10]

/-- The commands a faulted block executes (R224). -/
def inspects (i : Instr) : Bool := opcOf i ∈ [9, 11]

/-- STATUS of a block in test mode, as a sum of its fields (spec/10_state.md R28). -/
def statusOf (s : State) : Word :=
  BitVec.ofNat 32 (s.err.toNat + 16 * s.firstErr.toNat + 256 + 512 * s.scrAlloc.toNat)

/-- The response word `{0x00, R, G, B}` (spec/20_memory.md R51). -/
def packed (c : Rgb) : Word := BitVec.ofNat 32 (c.r.toNat * 65536 + c.g.toNat * 256 + c.b.toNat)

/-- The register names of the assembler (R76) with their numbers (spec/10_state.md R31). -/
def registerNames : List (RegName × Nat) :=
  [(.tick, 0), (.lastEvent, 1), (.status, 2), (.cfgN, 3), (.cfgTickW, 4), (.lines, 5)]

/-- The words of `WRBUF addr, data` (R76). -/
def wrbufWords (addr data : Nat) : Word × Word := (BitVec.ofNat 32 (0x0A000000 + data), BitVec.ofNat 32 addr)

/-- A byte of a response word is zero extended (R206). -/
def zextByte (v : Byte) : Word := BitVec.ofNat 32 v.toNat

end Sys2Proof.Claims

open Sys2Proof Sys2Proof.Machine Sys2Proof.Claims

/-! ## Commands of the access family (spec/44_host_access.md) -/

/-- R200: NOP responds 0 and changes nothing; any ARG is accepted, any reserved bit is RESERVED_NONZERO. -/
def Obligations.NopRespondsZero : Prop :=
  rowDecodes 0x00 0x00FFFFFF (fun _ _ => .nop) ∧
  ∀ s : State, s.ready → exec .nop s = .next { s with response := okResp 0 }

/-- R202: RDBUF responds FB[ADDR] zero extended and changes nothing else, faulted or not (R224); an address at or above
3·N raises ADDR_RANGE. -/
def Obligations.RdbufReadsByte : Prop :=
  rowDecodes 0x09 0x00FFFFFF (fun _ arg => .rdbuf arg) ∧
  ∀ (s : State) (addr : Word), s.inspectable →
    (addr.toNat < 3 * s.cfg.n →
      exec (.rdbuf addr) s = .next { s with response := okResp (zextByte (s.fb.read addr.toNat)) }) ∧
    (3 * s.cfg.n ≤ addr.toNat → exec (.rdbuf addr) s = .next (raised s 5))

/-- R203: WRBUF writes FB[ADDR] and no other byte, responds 0; an address at or above 3·N raises ADDR_RANGE. -/
def Obligations.WrbufWritesByte : Prop :=
  rowDecodes 0x0A 0x00FFFF00 (fun cmd arg => .wrbuf arg (cmd.extractLsb' 0 8)) ∧
  ∀ (s : State) (addr : Word) (data : Byte), s.ready → s.fb.wf = true →
    (addr.toNat < 3 * s.cfg.n → ∃ t, exec (.wrbuf addr data) s = .next t ∧
      (∀ a, t.fb.read a = if a = addr.toNat then data else s.fb.read a) ∧
      { t with fb := s.fb } = { s with response := okResp 0 }) ∧
    (3 * s.cfg.n ≤ addr.toNat → exec (.wrbuf addr data) s = .next (raised s 5))

/-- R204: RDREG responds the register of the map R31 and changes nothing else, faulted or not; numbers 6 to 15 raise
BAD_REG. -/
def Obligations.RdregReadsMap : Prop :=
  rowDecodes 0x0B 0x00FFFFF0 (fun cmd _ => .rdreg (cmd.extractLsb' 0 4)) ∧
  ∀ s : State, s.inspectable →
    exec (.rdreg 0) s = .next { s with response := okResp s.tick } ∧
    exec (.rdreg 1) s = .next { s with response := okResp s.lastEvent } ∧
    exec (.rdreg 2) s = .next { s with response := okResp (statusOf s) } ∧
    exec (.rdreg 3) s = .next { s with response := okResp (BitVec.ofNat 32 s.cfg.n) } ∧
    exec (.rdreg 4) s = .next { s with response := okResp (BitVec.ofNat 32 s.cfg.wTick) } ∧
    exec (.rdreg 5) s = .next { s with response := okResp (BitVec.ofNat 32 (s.clk.toNat + 2 * s.dat.toNat)) } ∧
    ∀ reg : BitVec 4, 6 ≤ reg.toNat → exec (.rdreg reg) s = .next (raised s 3)

/-- R205: WRREG writes VALUE mod 2^W_TICK to TICK or LAST_EVENT and nothing else, responds 0; numbers 2 to 15 raise
BAD_REG. -/
def Obligations.WrregWritesMap : Prop :=
  rowDecodes 0x0C 0x00FFFFF0 (fun cmd arg => .wrreg (cmd.extractLsb' 0 4) arg) ∧
  ∀ (s : State) (value : Word), s.ready →
    exec (.wrreg 0 value) s = .next
      { s with tick := BitVec.ofNat 32 (value.toNat % 2 ^ s.cfg.wTick), response := okResp 0 } ∧
    exec (.wrreg 1 value) s = .next
      { s with lastEvent := BitVec.ofNat 32 (value.toNat % 2 ^ s.cfg.wTick), response := okResp 0 } ∧
    ∀ reg : BitVec 4, 2 ≤ reg.toNat → exec (.wrreg reg value) s = .next (raised s 3)

/-- R53: a read by RDBUF or RDREG changes no state but the response and, where it raises an error, STATUS; repeating a
read or a write leaves the state the first one left. -/
def Obligations.RepeatedAccessIsIdempotent : Prop :=
  ∀ (i : Instr) (s t : State), opcOf i ∈ [9, 10, 11, 12] → s.fb.wf = true → exec i s = .next t →
    exec i t = .next t ∧
    (inspects i = true → { t with response := s.response, err := s.err, firstErr := s.firstErr } = s)

/-! ## The Color Model (spec/40_color_model.md) -/

/-- R104: HSV responds {0x00, R, G, B} of Color(HUE, SAT) and changes nothing else. -/
def Obligations.HsvRespondsColor : Prop :=
  rowDecodes 0x01 0x00FF0000 (fun cmd _ => .hsv (cmd.extractLsb' 0 8) (cmd.extractLsb' 8 8)) ∧
  ∀ (s : State) (hue sat : Byte), s.ready →
    exec (.hsv hue sat) s = .next { s with response := okResp (packed (color hue sat)) }

/-- R105: PAINT writes Color(HUE, SAT) into the three bytes of element IDX and no other byte, responds the color, and
leaves everything else; an index at or above N raises INDEX_RANGE. -/
def Obligations.PaintWritesElement : Prop :=
  rowDecodes 0x02 0x00FF0000 (fun cmd arg => .paint arg (cmd.extractLsb' 0 8) (cmd.extractLsb' 8 8)) ∧
  ∀ (s : State) (idx : Word) (hue sat : Byte), s.ready → s.fb.wf = true →
    (idx.toNat < s.cfg.n → ∃ t, exec (.paint idx hue sat) s = .next t ∧
      elementSet s t idx.toNat (color hue sat) ∧
      { t with fb := s.fb } = { s with response := okResp (packed (color hue sat)) }) ∧
    (s.cfg.n ≤ idx.toNat → exec (.paint idx hue sat) s = .next (raised s 4))

/-- R103: for sat = 0 the result is (255, 255, 255) for every hue. -/
def Obligations.ColorZeroSaturationIsWhite : Prop :=
  ∀ hue : Byte, color hue 0 = { r := 255, g := 255, b := 255 } ∧ 1023 % 256 = 255

/-- R101 with R12: for sat > 0, H = hue/256 and S = sat/255, each channel is the floor of 255 times the complement of the
exact rational HSV channel at V = 1. -/
def Obligations.ColorIsFloorOfExactComplement : Prop :=
  ∀ hue sat : Byte, sat ≠ 0 →
    let x := exactHsv ((hue.toNat : ℚ) / 256) ((sat.toNat : ℚ) / 255)
    ((color hue sat).r.toNat : Int) = ⌊(1 - x.1) * 255⌋ ∧
    ((color hue sat).g.toNat : Int) = ⌊(1 - x.2.1) * 255⌋ ∧
    ((color hue sat).b.toNat : Int) = ⌊(1 - x.2.2) * 255⌋

/-- R106: for sat > 0 one channel is 0, one channel is sat, and none exceeds sat; hue 0 at full saturation is
(0, 255, 255) and hue 128 is (255, 0, 0). -/
def Obligations.ColorComplementQuirk : Prop :=
  (∀ hue sat : Byte, sat ≠ 0 →
    ((color hue sat).r = 0 ∨ (color hue sat).g = 0 ∨ (color hue sat).b = 0) ∧
    ((color hue sat).r = sat ∨ (color hue sat).g = sat ∨ (color hue sat).b = sat) ∧
    (color hue sat).r ≤ sat ∧ (color hue sat).g ≤ sat ∧ (color hue sat).b ≤ sat) ∧
  color 0 255 = { r := 0, g := 255, b := 255 } ∧ color 128 255 = { r := 255, g := 0, b := 0 }

/-! ## Flicker (spec/41_effects.md) -/

/-- R38: a draw lies in its range, and an answer of the environment inside the range is the value drawn. That the answers
stand in a list, and what an answer outside the range does, is the model's choice (log 4, log 5). -/
def Obligations.DrawLiesInRange : Prop :=
  ∀ (s : State) (lo hi : Nat), lo < hi →
    (lo ≤ s.drawValue lo hi ∧ s.drawValue lo hi < hi) ∧
    ∀ (v : Nat) (rest : List Nat), lo ≤ v → v < hi → s.rand = v :: rest →
      s.drawValue lo hi = v ∧ s.afterDraw.rand = rest

/-- R121, R123: FLICKER draws the interval r; where d > r it draws index and hue, writes that color at saturation code
255 into that element and no other byte, and LAST_EVENT becomes TICK; else nothing is written. It responds 1 or 0, and
takes three draws or one; how draws are held is the model's choice (log 4). -/
def Obligations.FlickerFiresOnDistance : Prop :=
  rowDecodes 0x03 0x00FFFFFF (fun _ _ => .flicker) ∧
  ∀ s : State, s.ready → s.fb.wf = true →
    ((s.drawValue s.cfg.flkLo s.cfg.flkHi : Int) < distance s → ∃ t, exec .flicker s = .next t ∧
      elementSet s t ((drawn s 1).drawValue 0 s.cfg.n) (color (BitVec.ofNat 8 ((drawn s 2).drawValue 0 256)) 255) ∧
      t.lastEvent = s.tick ∧
      { t with fb := s.fb, lastEvent := s.lastEvent } = { drawn s 3 with response := okResp 1 }) ∧
    (distance s ≤ s.drawValue s.cfg.flkLo s.cfg.flkHi →
      exec .flicker s = .next { drawn s 1 with response := okResp 0 })

/-- R124 with the priority of R222: FLICKERX raises INDEX_RANGE, then DRAW_RANGE, whether or not the event would fire;
else it runs the flicker stage with the operands as draws. -/
def Obligations.FlickerxUsesOperands : Prop :=
  rowDecodes 0x04 0x0000FF00
    (fun cmd arg => .flickerx arg (cmd.extractLsb' 0 8) (cmd.extractLsb' 16 8)) ∧
  ∀ (s : State) (idx : Word) (hue rdraw : Byte), s.ready → s.fb.wf = true →
    if s.cfg.n ≤ idx.toNat then exec (.flickerx idx hue rdraw) s = .next (raised s 4)
    else if rdraw.toNat < s.cfg.flkLo ∨ s.cfg.flkHi ≤ rdraw.toNat then
      exec (.flickerx idx hue rdraw) s = .next (raised s 6)
    else if (rdraw.toNat : Int) < distance s then
      ∃ t, exec (.flickerx idx hue rdraw) s = .next t ∧ elementSet s t idx.toNat (color hue 255) ∧
        t.lastEvent = s.tick ∧
        { t with fb := s.fb, lastEvent := s.lastEvent } = { s with response := okResp 1 }
    else exec (.flickerx idx hue rdraw) s = .next { s with response := okResp 0 }

/-- R122: a firing call of the stage writes at most the three bytes of element e and sets LAST_EVENT to TICK; a call that
does not fire writes nothing. -/
def Obligations.FlickerStageTouchesOneElement : Prop :=
  ∀ (s : State) (src : DrawSource), s.fb.wf = true →
    ((flickerStage src s).outcome = true →
      (flickerStage src s).state.lastEvent = s.tick ∧
      ∀ a, a / 3 ≠ src.index (src.after s) → (flickerStage src s).state.fb.read a = s.fb.read a) ∧
    ((flickerStage src s).outcome = false →
      (flickerStage src s).state.lastEvent = s.lastEvent ∧ (flickerStage src s).state.fb = s.fb)

/-- R125 (a), (b), (c): FLICKER never fires while d ≤ FLK_LO and always fires once d ≥ FLK_HI, whatever is drawn; in
between an interval that fires and one that does not can both be drawn, through the model's RAND list (log 4). -/
def Obligations.FlickerFiringBounds : Prop :=
  ∀ s : State, s.ready →
    (distance s ≤ s.cfg.flkLo → ∃ t, exec .flicker s = .next t ∧ t.response = okResp 0) ∧
    ((s.cfg.flkHi : Int) ≤ distance s → ∃ t, exec .flicker s = .next t ∧ t.response = okResp 1) ∧
    ((s.cfg.flkLo : Int) < distance s → distance s < s.cfg.flkHi →
      (∃ t, exec .flicker { s with rand := [s.cfg.flkLo] } = .next t ∧ t.response = okResp 1) ∧
      (∃ t, exec .flicker { s with rand := [s.cfg.flkHi - 1] } = .next t ∧ t.response = okResp 0))

/-! ## Smear -/

/-- R130, R131, R134: with the gate open SMEAR copies FB to SCR, sets SCR_ALLOC, gives every byte of FB the weighted sum
of the old bytes divided by F_DEN (first, interior, last element), takes one draw per ANY channel, responds 1 and changes
nothing else; with the gate closed it responds 0 and changes nothing. The order of the ANY draws is the model's choice
(log 15). -/
def Obligations.SmearBlendsSnapshot : Prop :=
  rowDecodes 0x05 0x00FFFFFF (fun _ _ => .smear) ∧
  ∀ s : State, s.ready →
    (s.tick.toNat % 3 = 0 → ∃ t, exec .smear s = .next t ∧
      (∀ c, c < 3 →
        old t c = ((s.cfg.fDen - s.cfg.fNum) * old s c + s.cfg.fNum * old s (3 + c)) / s.cfg.fDen ∧
        (∀ e, 1 ≤ e → e ≤ s.cfg.n - 2 →
          old t (3 * e + c) = ((s.cfg.fDen - 2 * s.cfg.fNum) * old s (3 * e + c)
            + s.cfg.fNum * old s (3 * (e - 1) + c) + s.cfg.fNum * old s (3 * (e + 1) + c)) / s.cfg.fDen) ∧
        old t (3 * (s.cfg.n - 1) + c) = ((s.cfg.fDen - s.cfg.fNum) * old s (3 * (s.cfg.n - 1) + c)
          + s.cfg.fNum * lastNeighbour s c) / s.cfg.fDen) ∧
      (∀ a, 3 * s.cfg.n ≤ a → t.fb.read a = s.fb.read a) ∧
      (∀ a, t.scr.read a = if a < 3 * s.cfg.n then s.fb.read a else s.scr.read a) ∧
      t.scrAlloc = true ∧
      { t with fb := s.fb, scr := s.scr, scrAlloc := s.scrAlloc } =
        { drawn s (anyBelow s.cfg.lastSrc 3) with response := okResp 1 }) ∧
    (s.tick.toNat % 3 ≠ 0 → exec .smear s = .next { s with response := okResp 0 })

/-- R130, R131 with R12: each new byte is the floor of the exact rational blend with f = F_NUM / F_DEN, for every LAST_SRC:
the last element blends with LastSrc(c). The order of the ANY draws is the model's choice (log 15). -/
def Obligations.SmearIsFloorOfExactBlend : Prop :=
  ∀ s : State, s.ready → s.tick.toNat % 3 = 0 →
    ∃ t, exec .smear s = .next t ∧
      let f : ℚ := (s.cfg.fNum : ℚ) / s.cfg.fDen
      ∀ c, c < 3 →
        (old t c : Int) = ⌊(old s c : ℚ) * (1 - f) + f * old s (3 + c)⌋ ∧
        (∀ e, 1 ≤ e → e ≤ s.cfg.n - 2 →
          (old t (3 * e + c) : Int) = ⌊(old s (3 * e + c) : ℚ) * (1 - 2 * f)
            + f * old s (3 * (e - 1) + c) + f * old s (3 * (e + 1) + c)⌋) ∧
        (old t (3 * (s.cfg.n - 1) + c) : Int) =
          ⌊(old s (3 * (s.cfg.n - 1) + c) : ℚ) * (1 - f) + f * lastNeighbour s c⌋ ∧
        (s.cfg.lastSrc = .symmetric → lastNeighbour s c = old s (3 * (s.cfg.n - 2) + c))

/-- R133 (a): a buffer whose elements all hold the same color is unchanged by a pass under SYMMETRIC. -/
def Obligations.SmearKeepsUniformBuffer : Prop :=
  ∀ s : State, s.ready → s.cfg.lastSrc = .symmetric →
    (∀ e c, e < s.cfg.n → c < 3 → s.fb.read (3 * e + c) = s.fb.read c) →
    ∃ t, exec .smear s = .next t ∧ ∀ a, t.fb.read a = s.fb.read a

/-- R133 (c): under SYMMETRIC a pass leaves every channel column within the bounds it had. -/
def Obligations.SmearKeepsColumnBounds : Prop :=
  ∀ (s : State) (c low high : Nat), s.ready → s.cfg.lastSrc = .symmetric → c < 3 →
    (∀ e, e < s.cfg.n → low ≤ old s (3 * e + c) ∧ old s (3 * e + c) ≤ high) →
    ∃ t, exec .smear s = .next t ∧
      ∀ e, e < s.cfg.n → low ≤ old t (3 * e + c) ∧ old t (3 * e + c) ≤ high

/-! ## Decay -/

/-- R140, R141, R142: with the gate open DECAY gives every byte max(0, v - DECAY_A) and responds 1; with the gate closed
it responds 0; nothing else changes. -/
def Obligations.DecaySubtractsSaturating : Prop :=
  rowDecodes 0x06 0x00FFFFFF (fun _ _ => .decay) ∧
  ∀ s : State, s.ready →
    (s.tick.toNat % 3 = 0 → ∃ t, exec .decay s = .next t ∧
      (∀ a, (old t a : Int) = if a < 3 * s.cfg.n then max 0 ((old s a : Int) - s.cfg.decayA) else old s a) ∧
      { t with fb := s.fb } = { s with response := okResp 1 }) ∧
    (s.tick.toNat % 3 ≠ 0 → exec .decay s = .next { s with response := okResp 0 })

/-! ## Transmitter (spec/42_transmitter.md) -/

/-- R161, R163, R165: TRANSMIT appends the frame to the trace, leaves CLK at 0 and DAT at the last bit sent, responds 0,
and changes nothing else, where the environment completes every delay (R37, log 19). -/
def Obligations.TransmitSendsFrame : Prop :=
  rowDecodes 0x07 0x00FFFFFF (fun _ _ => .transmit) ∧
  ∀ s : State, s.ready → s.prompt → exec .transmit s = .next
    { s with
      trace := s.trace ++ frame s.cfg.toParams s.fb
      clk := false
      dat := (s.fb.read (3 * s.cfg.n - 1)).getLsbD 0
      response := okResp 0 }

/-- R164 (a), (c): a receiver that samples DAT at each rising edge of CLK gets exactly 24·N bits from one frame, and the
k-th is bit 7 - (k mod 8) of FB[k div 8], whatever the lines' levels at the start and whatever the hooks; the environment
completes every delay (R37, log 19). -/
def Obligations.ReceiverRecoversFrameBuffer : Prop :=
  ∀ s : State, s.ready → s.prompt → ∃ t events, exec .transmit s = .next t ∧ t.trace = s.trace ++ events ∧
    (received s.clk s.dat events).length = 24 * s.cfg.n ∧
    ∀ k, k < 24 * s.cfg.n →
      (received s.clk s.dat events)[k]? = some ((s.fb.read (k / 8)).getLsbD (7 - k % 8))

/-- R164 (b): with the hooks at 0 a frame is 72·N + 1 line writes and, with T_GAP_MS > 0, one delay, where the environment
completes it (R37, log 19). -/
def Obligations.FrameEventCount : Prop :=
  ∀ s : State, s.ready → s.prompt → s.cfg.bitDelayUs = 0 → s.cfg.byteDelayUs = 0 →
    ∃ t events, exec .transmit s = .next t ∧ t.trace = s.trace ++ events ∧
      events.countP isLineWrite = 72 * s.cfg.n + 1 ∧
      events.countP (fun e => !isLineWrite e) = if s.cfg.tGapMs > 0 then 1 else 0

/-- R164 (d), R255: in the events of TRANSMIT and of TICK, DAT is written only while CLK = 0, and CLK is 0 at the end of the
operation, whatever its level at the start and whether or not the environment keeps a delay waiting. -/
def Obligations.DataStableWhileClockHigh : Prop :=
  ∀ (s : State) (i : Instr), s.ready → (i = .transmit ∨ i = .tick) →
    ∃ t events, exec i s = .next t ∧ t.trace = s.trace ++ events ∧
      datOnlyWhileLow s.clk events = true ∧ (t.pending = none → t.clk = false)

/-! ## Scheduler (spec/43_scheduler.md) -/

/-- R57, R143, R181, R183: TICK is FLICKER, SMEAR, DECAY and TRANSMIT in that order, then Clk(0), the inter-tick delay
and the increment of TICK modulo 2^W_TICK; it responds with gated in bit 1 and fired in bit 0; the
environment completes every delay (R37, log 19). -/
def Obligations.TickRunsStagesInOrder : Prop :=
  rowDecodes 0x08 0x00FFFFFF (fun _ _ => .tick) ∧
  ∀ s : State, s.ready → s.prompt → ∃ f m d x,
    exec .flicker s = .next f ∧ exec .smear f = .next m ∧ exec .decay m = .next d ∧ exec .transmit d = .next x ∧
    exec .tick s = .next
      { x with
        trace := x.trace ++ tickTail s.cfg.toParams
        clk := false
        tick := BitVec.ofNat 32 ((s.tick.toNat + 1) % 2 ^ s.cfg.wTick)
        response := okResp ((if m.response = okResp 1 then 2 else 0) + (if f.response = okResp 1 then 1 else 0)) }

/-- R182: with the default hooks and delays the events of one tick are 72·N line writes, Clk(0), DelayMs(1), Clk(0),
DelayMs(15), where the environment completes the delays (R37, log 19). -/
def Obligations.DefaultTickTrace : Prop :=
  ∀ s : State, s.ready → s.prompt → s.cfg.bitDelayUs = 0 → s.cfg.byteDelayUs = 0 → s.cfg.tGapMs = 1 →
    s.cfg.tTickMs = 15 →
    ∃ t events, exec .tick s = .next t ∧
      t.trace = s.trace ++ events ++ [.clk false, .delayMs 1, .clk false, .delayMs 15] ∧
      events.length = 72 * s.cfg.n ∧ events.all isLineWrite = true

/-- R184: TICK increments modulo 2^W_TICK; after 2^W_TICK - 1 comes 0, and the wrap raises nothing, where the environment
completes the delays before the increment (R37, log 19). -/
def Obligations.TickWrapsWithoutError : Prop :=
  ∀ s : State, s.ready → s.prompt → s.tick.toNat < 2 ^ s.cfg.wTick → ∃ t v, exec .tick s = .next t ∧
    t.response = okResp v ∧ t.err = false ∧ t.firstErr = s.firstErr ∧
    t.tick.toNat = if s.tick.toNat = 2 ^ s.cfg.wTick - 1 then 0 else s.tick.toNat + 1

/-- R185: across the wrap, for even W_TICK the ticks 2^W_TICK - 1 and 0 are both gated; for odd W_TICK the ticks
2^W_TICK - 2 and 0 are gated and 2^W_TICK - 1 between them is not. The environment completes every delay (R37, log 19). -/
def Obligations.GateCadenceAcrossWrap : Prop :=
  ∀ s : State, s.ready → s.prompt →
    (s.cfg.wTick % 2 = 0 → s.tick.toNat = 2 ^ s.cfg.wTick - 1 →
      ∃ t u, exec .tick s = .next t ∧ respondsGated t ∧ exec .tick t = .next u ∧ respondsGated u) ∧
    (s.cfg.wTick % 2 = 1 → s.tick.toNat = 2 ^ s.cfg.wTick - 2 →
      ∃ t u v, exec .tick s = .next t ∧ respondsGated t ∧ exec .tick t = .next u ∧ respondsUngated u ∧
        exec .tick u = .next v ∧ respondsGated v)

/-- R186: in autonomous mode, with no operation running, a step in which the environment makes no move is one tick
operation, the one TICK runs in test mode, without its response; where the environment keeps a delay waiting, both stop at
the same position. That the environment's moves stand in a schedule is the model's choice (log 7), and so is that an earlier
response stays present across the step (log 9). -/
def Obligations.AutonomousStepIsTickOperation : Prop :=
  ∀ s : State, s.mode = .autonomous → s.pending = none → (s.env = [] ∨ s.env.head? = some .quiet) →
    ∃ t, exec .tick { s with mode := .test, err := false, env := s.env.tail } = .next t ∧
      step s = .next
        { t with
          mode := .autonomous
          err := s.err
          response := s.response
          pending := t.pending.map (fun p => { p with ending := .loop }) }

/-- In test mode a block that is offered no command waits and changes nothing (R251's entry, R43's command row), and so does
one with a delay pending (R37); a step only takes the environment's move from its schedule, which is the model's choice
(log 7), and so is that an earlier response stays present across the waiting step (log 9). -/
def Obligations.TestModeWaitsForCommand : Prop :=
  ∀ s : State, s.mode = .test → (s.env = [] ∨ s.env.head? = some .quiet) →
    step s = .next { s with env := s.env.tail }

/-! ## Delays the environment keeps waiting (spec/10_state.md R37, R40, R41, R43) -/

/-- R37, R41: where the environment completes only the delays before it at once, TRANSMIT and TICK emit the delay request and
nothing after it, respond nothing, do not increment TICK, and wait at that position (log 6, log 19). That an earlier
response stays present meanwhile is the model's choice (log 9). -/
def Obligations.HeldDelayStopsOperation : Prop :=
  ∀ (s : State) (before : List Event) (delay : Event) (rest : List Event), s.ready → isLineWrite delay = false →
    s.hold = some (delays before) →
    (frame s.cfg.toParams s.fb = before ++ delay :: rest →
      exec .transmit s = .next
        { s with
          trace := s.trace ++ (before ++ [delay])
          clk := clkAfter s.clk before
          dat := datAfter s.dat before
          hold := none
          pending := some { delay := delay, rest := rest, ending := .transmit } }) ∧
    ∃ f m d, exec .flicker s = .next f ∧ exec .smear f = .next m ∧ exec .decay m = .next d ∧
      (frame d.cfg.toParams d.fb ++ tickTail d.cfg.toParams = before ++ delay :: rest →
        exec .tick s = .next
          { d with
            trace := s.trace ++ (before ++ [delay])
            clk := clkAfter s.clk before
            dat := datAfter s.dat before
            response := s.response
            hold := none
            pending := some
              { delay := delay, rest := rest
                ending := .tick (decide (m.response = okResp 1)) (decide (f.response = okResp 1)) } })

/-- R37, R40, R43 (U21): a block with a delay pending is stuck until the environment completes it or resets the block. In test
mode it takes no command and changes nothing; in autonomous mode it answers a command with RESP = 0, RESP_ERR = 1 and
changes nothing else. The schedule is the model's choice (log 7), and so is that an earlier response stays present (log 9). -/
def Obligations.PendingDelayBlocksUntilCompleted : Prop :=
  ∀ s : State, s.pending ≠ none → (∀ b, s.env.head? ≠ some (.reset b)) → (∀ h, s.env.head? ≠ some (.delayDone h)) →
    (s.mode = .test → step s = .next { s with env := s.env.tail } ∧ ∀ i, exec i s = .next s) ∧
    (s.mode = .autonomous → (s.env = [] ∨ s.env.head? = some .quiet) → step s = .next { s with env := s.env.tail }) ∧
    (s.mode = .autonomous → ∀ cmd arg, s.env.head? = some (.command cmd arg) →
      step s = .next { s with env := s.env.tail, response := errResp })

/-- R14, R37, R231: however many delays the environment completes at once, once it has completed the one it kept waiting and
the rest, TRANSMIT and TICK, and a tick of the autonomous loop, end in the state they reach where every delay is completed at
once; and completing some and then the rest is completing them all (log 6, log 19). -/
def Obligations.CompletionFinishesOperation : Prop :=
  (∀ (i : Instr) (s t v : State) (rest : List EnvMove), s.ready → (i = .transmit ∨ i = .tick) →
    s.env = .delayDone none :: rest → exec i s = .next t → exec i { s with hold := none } = .next v →
    step t = .next { v with env := rest }) ∧
  (∀ (s t v : State) (rest : List EnvMove), s.mode = .autonomous → s.pending = none →
    s.env = .quiet :: .delayDone none :: rest → step s = .next t → step { s with hold := none } = .next v →
    step t = .next { v with env := rest }) ∧
  (∀ (s t v : State) (k : Nat) (rest : List EnvMove), s.pending ≠ none →
    step { s with env := .delayDone (some k) :: .delayDone none :: rest } = .next t →
    step { s with env := .delayDone none :: rest } = .next v → step t = .next v)

/-! ## Errors, modes and reset (spec/60_exceptions.md, spec/70_reset_and_hazards.md) -/

/-- A step on a command that decodes runs exactly that command (R70, R75); the schedule's move is used up
(the schedule is the model's choice, log 7). -/
def Obligations.StepRunsDecodedCommand : Prop :=
  ∀ (s : State) (cmd arg : Word) (rest : List EnvMove) (i : Instr),
    s.env = .command cmd arg :: rest → decode cmd arg = .ok i → step s = exec i { s with env := rest }

/-- R75 with R221: in test mode, with no operation running, a step on a command with an undefined OPC raises
ILLEGAL_OPCODE and one on a command with a reserved bit at 1 raises RESERVED_NONZERO: RESP = 0, RESP_ERR = 1, STATUS,
and nothing else. -/
def Obligations.UndecodableCommandRaises : Prop :=
  ∀ (s : State) (cmd arg : Word) (rest : List EnvMove), s.mode = .test → s.pending = none →
    s.env = .command cmd arg :: rest →
    (13 ≤ opc cmd → step s = .next (raised { s with env := rest } 1)) ∧
    (decode cmd arg = .error .reservedNonzero → step s = .next (raised { s with env := rest } 2))

/-- R221: a command that completes with an error leaves every piece of state but the response, ERR and FIRST_ERR as it
was, and records a code of R220; one that completes without, or waits with a delay pending, leaves ERR at 0. -/
def Obligations.ErrorsArePrecise : Prop :=
  ∀ (s t : State) (cmd arg : Word) (rest : List EnvMove), s.ready → s.env = .command cmd arg :: rest →
    step s = .next t →
    (∃ v, t.response = okResp v ∧ t.err = false ∧ t.firstErr = s.firstErr) ∨
    (t.pending ≠ none ∧ t.err = false ∧ t.firstErr = s.firstErr) ∨
    (∃ code : BitVec 4, 1 ≤ code.toNat ∧ code.toNat ≤ 6 ∧ t = raised { s with env := rest } code)

/-- R223: of the errors beyond decoding, each command raises only those of its own rule. -/
def Obligations.OwnErrorsPerCommand : Prop :=
  ∀ (i : Instr) (s : State), s.ready → ∃ t, exec i s = .next t ∧
    (t.err = true → t.firstErr.toNat ∈ ownErrors i)

/-- R224: a faulted block answers every command but RDREG and RDBUF with RESP = 0, RESP_ERR = 1, and changes nothing. -/
def Obligations.FaultedBlockExecutesNothing : Prop :=
  ∀ (i : Instr) (s : State), s.mode = .test → s.pending = none → s.err = true → inspects i = false →
    exec i s = .next { s with response := errResp }

/-- R225, R28: while faulted no step but reset clears ERR or changes FIRST_ERR. -/
def Obligations.FirstErrorIsSticky : Prop :=
  ∀ s : State, s.err = true → (∀ b, s.env.head? ≠ some (.reset b)) →
    ∃ t, step s = .next t ∧ t.err = true ∧ t.firstErr = s.firstErr

/-- R226: in autonomous mode every command, whatever its words, is answered with RESP = 0, RESP_ERR = 1 and changes
nothing else. That the answer is a step of its own between two ticks is the model's choice (log 8). -/
def Obligations.AutonomousPortExecutesNothing : Prop :=
  (∀ (s : State) (cmd arg : Word) (rest : List EnvMove), s.mode = .autonomous → s.env = .command cmd arg :: rest →
    step s = .next { s with env := rest, response := errResp }) ∧
  ∀ (i : Instr) (s : State), s.mode = .autonomous → exec i s = .next { s with response := errResp }

/-- R250, R251: a step on a reset samples TEST_MODE into MODE and gives every piece of the block's state its reset value,
abandoning a running operation; the configuration stays, and so do the environment's remaining moves, its draws and its
plan for delays, which is the model's choice (log 10). -/
def Obligations.ResetGivesResetState : Prop :=
  ∀ (s : State) (testMode : Bool) (rest : List EnvMove), s.env = .reset testMode :: rest →
    ∃ t, step s = .next t ∧ (∀ a, t.fb.read a = 0) ∧ t.scrAlloc = false ∧ t.tick = 0 ∧ t.lastEvent = 0 ∧
      t.err = false ∧ t.firstErr = 0 ∧ t.mode = (if testMode then .test else .autonomous) ∧
      t.clk = false ∧ t.dat = false ∧ t.trace = [] ∧ t.response = none ∧ t.pending = none ∧
      t.cfg = s.cfg ∧ t.env = rest ∧ t.rand = s.rand ∧ t.drawCount = s.drawCount ∧ t.hold = s.hold

/-- R28: the fields of STATUS: ERR in bit 0, bits 3:1 zero, FIRST_ERR in 7:4, MODE in bit 8, SCR_ALLOC in bit 9, bits
31:10 zero. -/
def Obligations.StatusWordFields : Prop :=
  ∀ s : State,
    (statusWord s).getLsbD 0 = s.err ∧ (statusWord s).extractLsb' 1 3 = 0 ∧
    (statusWord s).extractLsb' 4 4 = s.firstErr ∧ (statusWord s).getLsbD 8 = decide (s.mode = .test) ∧
    (statusWord s).getLsbD 9 = s.scrAlloc ∧ (statusWord s).extractLsb' 10 22 = 0

/-- R29, R34: no step changes the configuration, and no step but reset changes MODE. -/
def Obligations.ConfigAndModeAreConstant : Prop :=
  ∀ s : State, ∃ t, step s = .next t ∧ t.cfg = s.cfg ∧
    ((∀ b, s.env.head? ≠ some (.reset b)) → t.mode = s.mode)

/-- R23, R25, R26, R27, R160, R201: the commands that may write each piece of state; every other command leaves it. -/
def Obligations.OnlyItsWritersChangeState : Prop :=
  ∀ (i : Instr) (s : State), ∃ t, exec i s = .next t ∧
    (mayWriteFb i = false → t.fb = s.fb) ∧
    (i ≠ .tick → (∀ v, i ≠ .wrreg 0 v) → t.tick = s.tick) ∧
    (i ≠ .flicker → (∀ e h r, i ≠ .flickerx e h r) → i ≠ .tick → (∀ v, i ≠ .wrreg 1 v) →
      t.lastEvent = s.lastEvent) ∧
    (i ≠ .smear → i ≠ .tick → t.scr = s.scr ∧ t.scrAlloc = s.scrAlloc) ∧
    (i ≠ .transmit → i ≠ .tick →
      t.trace = s.trace ∧ t.clk = s.clk ∧ t.dat = s.dat ∧ t.pending = s.pending ∧ t.hold = s.hold) ∧
    (i ≠ .flicker → i ≠ .smear → i ≠ .tick → t.rand = s.rand ∧ t.drawCount = s.drawCount)

/-- R75: every step answers a next state: decoding is total, and no command, error or reset halts the block. A block whose
delay is never completed is stuck (U21), and stays in a waiting state. That the model has no fault, and that the stuck block
is a state, is the model's reading (log 13, log 6). -/
def Obligations.EveryStepAnswersNext : Prop :=
  ∀ s : State, ∃ t, step s = .next t

/-! ## The invariant, and what nothing observes -/

/-- Every step keeps the invariant: canonical buffers of 3·N bytes (R24), W_TICK-bit counters (R26, R27), legal STATUS
(R28, R220), CLK low between operations (R163), lines that hold the trace's last levels (R35), and a pending delay that is
the trace's last event (R37, R41). -/
def Obligations.StepKeepsInvariant : Prop :=
  ∀ s t : State, s.Inv → step s = .next t → t.Inv

/-- The invariant holds after reset, for every configuration and strap; SCR's contents there are the model's choice (log 3). -/
def Obligations.ResetMeetsInvariant : Prop :=
  ∀ (cfg : Config) (testMode : Bool), (State.resetWith cfg testMode).Inv

/-- R25, R41: the contents of SCR are not observable: two blocks that differ in SCR alone make steps that differ in SCR
alone. -/
def Obligations.ScratchIsUnobservable : Prop :=
  ∀ (s : State) (m : Memory), ∃ t m', step s = .next t ∧ step { s with scr := m } = .next { t with scr := m' }

/-! ## Encoding (spec/30_encoding.md) -/

/-- Decoding the words the encoder writes gives the instruction back, for every operand. -/
def Obligations.DecodeOfEncode : Prop :=
  ∀ i : Instr, decode (encode i).1 (encode i).2 = .ok i

/-- A pair that decodes is the encoding of its instruction, but for an ARG the command ignores: no two command words mean
the same, and no bit is dropped. -/
def Obligations.EncodeOfDecode : Prop :=
  ∀ (cmd arg : Word) (i : Instr), decode cmd arg = .ok i →
    (encode i).1 = cmd ∧ (i.usesArg = true → (encode i).2 = arg)

/-- R75 over the map R74: an undefined OPC is ILLEGAL_OPCODE; else CMD & mask ≠ match is RESERVED_NONZERO; else the pair
is a command of that row. -/
def Obligations.DecodeFollowsOpcodeMap : Prop :=
  ∀ cmd arg : Word,
    (13 ≤ opc cmd → decode cmd arg = .error .illegalOpcode) ∧
    ∀ pattern mask : Nat, opcodeMap[opc cmd]? = some (pattern, mask) →
      (cmd.toNat &&& mask ≠ pattern → decode cmd arg = .error .reservedNonzero) ∧
      (cmd.toNat &&& mask = pattern → ∃ i, decode cmd arg = .ok i ∧ opcOf i = opc cmd)

/-- A few words of spec/95_test_vectors.md decode to the commands they stand for. -/
def Obligations.VectorWordsDecode : Prop :=
  decode 0x0100FF01 0 = .ok (.hsv 1 255) ∧
  decode 0x02000005 0 = .ok (.paint 0 5 0) ∧
  decode 0x040E0080 2 = .ok (.flickerx 2 128 14) ∧
  decode 0x0A0000FF 4 = .ok (.wrbuf 4 255) ∧
  decode 0x0C000000 0x00012345 = .ok (.wrreg 0 0x00012345) ∧
  decode 0x0B00001F 0 = .error .reservedNonzero ∧
  decode 0x0D000001 0 = .error .illegalOpcode

/-- R76: the words of each command line whose operands fit, ARG = 0 where the command ignores it, registers by number or by
name; a line with an operand that does not fit its field is rejected. -/
def Obligations.AssemblerWritesWords : Prop :=
  ∀ n hue sat idx r data reg value : Nat,
    (hue < 256 → sat < 256 → r < 256 → data < 256 → reg < 16 → idx < 2 ^ 32 → value < 2 ^ 32 →
      assemble n .nop = some [(0x00000000, 0)] ∧
      assemble n (.hsv hue sat) = some [(BitVec.ofNat 32 (0x01000000 + sat * 256 + hue), 0)] ∧
      assemble n (.paint idx hue sat) =
        some [(BitVec.ofNat 32 (0x02000000 + sat * 256 + hue), BitVec.ofNat 32 idx)] ∧
      assemble n .flicker = some [(0x03000000, 0)] ∧
      assemble n (.flickerx idx hue r) =
        some [(BitVec.ofNat 32 (0x04000000 + r * 65536 + hue), BitVec.ofNat 32 idx)] ∧
      assemble n .smear = some [(0x05000000, 0)] ∧
      assemble n .decay = some [(0x06000000, 0)] ∧
      assemble n .transmit = some [(0x07000000, 0)] ∧
      assemble n .tick = some [(0x08000000, 0)] ∧
      assemble n (.rdbuf idx) = some [(0x09000000, BitVec.ofNat 32 idx)] ∧
      assemble n (.wrbuf idx data) = some [wrbufWords idx data] ∧
      assemble n (.rdreg (.number reg)) = some [(BitVec.ofNat 32 (0x0B000000 + reg), 0)] ∧
      assemble n (.wrreg (.number reg) value) =
        some [(BitVec.ofNat 32 (0x0C000000 + reg), BitVec.ofNat 32 value)] ∧
      ∀ name number, (name, number) ∈ registerNames →
        assemble n (.rdreg (.name name)) = some [(BitVec.ofNat 32 (0x0B000000 + number), 0)] ∧
        assemble n (.wrreg (.name name) value) =
          some [(BitVec.ofNat 32 (0x0C000000 + number), BitVec.ofNat 32 value)]) ∧
    (256 ≤ hue →
      assemble n (.hsv hue sat) = none ∧ assemble n (.paint idx hue sat) = none ∧
      assemble n (.flickerx idx hue r) = none) ∧
    (256 ≤ sat → assemble n (.hsv hue sat) = none ∧ assemble n (.paint idx hue sat) = none) ∧
    (256 ≤ r → assemble n (.flickerx idx hue r) = none) ∧
    (256 ≤ data → assemble n (.wrbuf idx data) = none) ∧
    (16 ≤ reg → assemble n (.rdreg (.number reg)) = none ∧ assemble n (.wrreg (.number reg) value) = none) ∧
    (2 ^ 32 ≤ idx →
      assemble n (.paint idx hue sat) = none ∧ assemble n (.flickerx idx hue r) = none ∧
      assemble n (.rdbuf idx) = none ∧ assemble n (.wrbuf idx data) = none) ∧
    (2 ^ 32 ≤ value → ∀ operand, assemble n (.wrreg operand value) = none)

/-- R77: the words of each pseudo-instruction are those of its expansion, for a strip of n elements (R8 bounds n); one
whose expansion has an operand that does not fit its field is rejected (R76). -/
def Obligations.PseudoInstructionsExpand : Prop :=
  ∀ n idx r g b v k : Nat,
    (3 * idx + 2 < 2 ^ 32 → r < 256 → g < 256 → b < 256 → v < 2 ^ 32 →
      assemble n (.setrgb idx r g b) =
        some [wrbufWords (3 * idx) r, wrbufWords (3 * idx + 1) g, wrbufWords (3 * idx + 2) b] ∧
      assemble n (.getrgb idx) =
        some [(0x09000000, BitVec.ofNat 32 (3 * idx)), (0x09000000, BitVec.ofNat 32 (3 * idx + 1)),
          (0x09000000, BitVec.ofNat 32 (3 * idx + 2))] ∧
      assemble n (.settick v) = some [(0x0C000000, BitVec.ofNat 32 v)] ∧
      assemble n (.setlast v) = some [(0x0C000001, BitVec.ofNat 32 v)]) ∧
    assemble n .stages = some [(0x03000000, 0), (0x05000000, 0), (0x06000000, 0)] ∧
    assemble n (.run k) = some (List.replicate k (0x08000000, 0)) ∧
    (3 * n < 2 ^ 32 → assemble n .clearfb = some ((List.range (3 * n)).map (fun a => wrbufWords a 0))) ∧
    (2 ^ 32 ≤ 3 * idx + 2 → assemble n (.setrgb idx r g b) = none ∧ assemble n (.getrgb idx) = none) ∧
    (256 ≤ r ∨ 256 ≤ g ∨ 256 ≤ b → assemble n (.setrgb idx r g b) = none) ∧
    (2 ^ 32 ≤ v → assemble n (.settick v) = none ∧ assemble n (.setlast v) = none)

/-- R77: SETRGB over three steps leaves the element at the given bytes and every other byte as it was, for a ready block
whose environment offers the expansion. -/
def Obligations.SetrgbExpansionSetsElement : Prop :=
  ∀ (s : State) (idx r g b : Nat), s.ready → s.fb.wf = true → idx < s.cfg.n → r < 256 → g < 256 → b < 256 →
    ∃ words, assemble s.cfg.n (.setrgb idx r g b) = some words ∧ words.length = 3 ∧
      ∃ t1 t2 t3,
        step { s with env := words.map (fun w => .command w.1 w.2) } = .next t1 ∧ step t1 = .next t2 ∧
        step t2 = .next t3 ∧
        elementSet s t3 idx { r := BitVec.ofNat 8 r, g := BitVec.ofNat 8 g, b := BitVec.ofNat 8 b }

/-! ## Configuration (spec/00_scope.md) -/

/-- R8, R10: a record is accepted as a configuration exactly when every value lies in its legal range; N = 1 is refused. -/
def Obligations.IllegalConfigurationRefused : Prop :=
  (∀ p : Params, (Config.make? p).isSome = true ↔
    2 ≤ p.n ∧ 3 * p.n ≤ 2 ^ 32 - 1 ∧ 2 ≤ p.wTick ∧ p.wTick ≤ 32 ∧ 2 * p.fNum ≤ p.fDen ∧ 1 ≤ p.fDen ∧
    p.decayA ≤ 255 ∧ p.flkLo < p.flkHi ∧ p.flkHi ≤ 256 ∧ p.flkSat = 255 ∧
    ∀ c k, c < 3 → sourceOf p.lastSrc c = some (.byte k) → k < 3 * p.n) ∧
  ∀ p : Params, p.n = 1 → Config.make? p = none
end

