-- ==== Sys2Proof/Laws/Config.lean ====
section
/-! SUPPORT. The legal ranges of a configuration, one fact each (spec/00_scope.md R8). -/

namespace Sys2Proof

/-- What a configuration's proof of legality says. -/
structure Config.Ranges (c : Config) : Prop where
  two_le_n : 2 ≤ c.n
  size_le : 3 * c.n ≤ 4294967295
  two_le_wTick : 2 ≤ c.wTick
  wTick_le : c.wTick ≤ 32
  factor_le : 2 * c.fNum ≤ c.fDen
  den_pos : 1 ≤ c.fDen
  decay_le : c.decayA ≤ 255
  lo_lt_hi : c.flkLo < c.flkHi
  hi_le : c.flkHi ≤ 256
  lastSrc_legal : c.lastSrc.legal (3 * c.n) = true
  flkSat_eq : c.flkSat = 255

theorem Config.ranges (c : Config) : c.Ranges := by
  have h := c.legal
  simp only [Params.legal, Bool.and_eq_true, decide_eq_true_eq] at h
  obtain ⟨⟨⟨⟨⟨⟨⟨⟨⟨⟨h1, h2⟩, h3⟩, h4⟩, h5⟩, h6⟩, h7⟩, h8⟩, h9⟩, h10⟩, h11⟩ := h
  exact ⟨h1, h2, h3, h4, h5, h6, h7, h8, h9, h10, h11⟩

/-- `2^W_TICK` divides `2^32`. -/
theorem Config.pow_wTick_dvd (c : Config) : 2 ^ c.wTick ∣ 2 ^ 32 := Nat.pow_dvd_pow 2 c.ranges.wTick_le

theorem Config.pow_wTick_pos (c : Config) : 0 < 2 ^ c.wTick := Nat.two_pow_pos _

end Sys2Proof
end

