-- ==== Sys2Proof/Laws/Encoding.lean ====
section
/-! SUPPORT. The fields of a packed command word, and a packed word as a number. -/

namespace Sys2Proof

theorem toNat_packCmd (a b c d : Byte) :
    (packCmd a b c d).toNat = a.toNat * 16777216 + b.toNat * 65536 + c.toNat * 256 + d.toNat := by
  have ha := a.isLt; have hb := b.isLt; have hc := c.isLt; have hd := d.isLt
  simp only [packCmd, BitVec.toNat_append]
  rw [← Nat.shiftLeft_add_eq_or_of_lt hd, ← Nat.shiftLeft_add_eq_or_of_lt hc, ← Nat.shiftLeft_add_eq_or_of_lt hb]
  simp only [Nat.shiftLeft_eq]
  omega

@[simp] theorem fieldOpc_packCmd (a b c d : Byte) : fieldOpc (packCmd a b c d) = a := by
  apply BitVec.eq_of_toNat_eq
  have hb := b.isLt; have hc := c.isLt; have hd := d.isLt; have ha := a.isLt
  simp only [fieldOpc, BitVec.extractLsb'_toNat, toNat_packCmd, Nat.shiftRight_eq_div_pow]
  omega

@[simp] theorem fieldRdraw_packCmd (a b c d : Byte) : fieldRdraw (packCmd a b c d) = b := by
  apply BitVec.eq_of_toNat_eq
  have hb := b.isLt; have hc := c.isLt; have hd := d.isLt; have ha := a.isLt
  simp only [fieldRdraw, BitVec.extractLsb'_toNat, toNat_packCmd, Nat.shiftRight_eq_div_pow]
  omega

@[simp] theorem fieldSat_packCmd (a b c d : Byte) : fieldSat (packCmd a b c d) = c := by
  apply BitVec.eq_of_toNat_eq
  have hb := b.isLt; have hc := c.isLt; have hd := d.isLt; have ha := a.isLt
  simp only [fieldSat, BitVec.extractLsb'_toNat, toNat_packCmd, Nat.shiftRight_eq_div_pow]
  omega

@[simp] theorem fieldLow_packCmd (a b c d : Byte) : fieldLow (packCmd a b c d) = d := by
  apply BitVec.eq_of_toNat_eq
  have hb := b.isLt; have hc := c.isLt; have hd := d.isLt; have ha := a.isLt
  simp only [fieldLow, BitVec.extractLsb'_toNat, toNat_packCmd, Nat.shiftRight_eq_div_pow]
  omega

@[simp] theorem fieldReg_packCmd (a b c d : Byte) : fieldReg (packCmd a b c d) = d.setWidth 4 := by
  apply BitVec.eq_of_toNat_eq
  have hb := b.isLt; have hc := c.isLt; have hd := d.isLt; have ha := a.isLt
  simp only [fieldReg, BitVec.extractLsb'_toNat, toNat_packCmd, Nat.shiftRight_eq_div_pow, BitVec.toNat_setWidth]
  omega

/-- Masking a packed word masks its bytes. -/
theorem packCmd_and (a b c d a' b' c' d' : Byte) :
    packCmd a b c d &&& packCmd a' b' c' d' = packCmd (a &&& a') (b &&& b') (c &&& c') (d &&& d') := by
  unfold packCmd
  show (a ++ b ++ c ++ d : BitVec (8 + 8 + 8 + 8)) &&& (a' ++ b' ++ c' ++ d' : BitVec (8 + 8 + 8 + 8)) = _
  rw [BitVec.and_append, BitVec.and_append, BitVec.and_append]

/-- Every word is packed from its four bytes. -/
theorem packCmd_fields (w : Word) : packCmd (fieldOpc w) (fieldRdraw w) (fieldSat w) (fieldLow w) = w := by
  apply BitVec.eq_of_toNat_eq
  have hw := w.isLt
  rw [toNat_packCmd]
  simp only [fieldOpc, fieldRdraw, fieldSat, fieldLow, BitVec.extractLsb'_toNat, Nat.shiftRight_eq_div_pow]
  omega

theorem packCmd_inj {a b c d a' b' c' d' : Byte} :
    packCmd a b c d = packCmd a' b' c' d' ↔ a = a' ∧ b = b' ∧ c = c' ∧ d = d' := by
  constructor
  · intro h
    exact ⟨by simpa using congrArg fieldOpc h, by simpa using congrArg fieldRdraw h,
      by simpa using congrArg fieldSat h, by simpa using congrArg fieldLow h⟩
  · rintro ⟨rfl, rfl, rfl, rfl⟩
    rfl

/-- The row of an OPC is found at its place in the map. -/
theorem findRow_of_row : ∀ {k : Nat} {row : OpcodeRow}, opcodeTable[k]? = some row →
    findRow row.opc opcodeTable = some row := by
  intro k row h
  have hk : k < 13 := by
    by_contra hk
    rw [List.getElem?_eq_none (by simpa [opcodeTable] using Nat.le_of_not_lt hk)] at h
    cases h
  interval_cases k <;> cases h <;> rfl

/-- Decoding a word whose OPC is a row's tests the row's mask (spec/30_encoding.md R75). -/
theorem decode_of_row {cmd arg : Word} {k : Nat} {row : OpcodeRow} (h : opcodeTable[k]? = some row)
    (ho : fieldOpc cmd = row.opc) :
    decode cmd arg = if cmd &&& row.mask = row.pattern then .ok (row.build cmd arg) else .error .reservedNonzero := by
  rw [decode, ho, findRow_of_row h]

/-- A word whose OPC is that of the pattern has the pattern under the mask exactly when the reserved bits are 0. -/
theorem reserved_iff {cmd : Word} {o b c d : Byte} (ho : fieldOpc cmd = o) :
    cmd &&& packCmd 0xFF b c d = packCmd o 0 0 0 ↔ cmd &&& packCmd 0 b c d = 0 := by
  have h0 : (0 : Word) = packCmd 0 0 0 0 := by decide
  rw [h0, ← packCmd_fields cmd, packCmd_and, packCmd_and, packCmd_inj, packCmd_inj, ho]
  have h1 : o &&& 0xFF = o := BitVec.and_allOnes
  have h2 : o &&& 0 = 0 := BitVec.and_zero
  simp only [h1, h2, true_and]

/-- A command word with an OPC at or above 0x0D is ILLEGAL_OPCODE (R75). -/
theorem decode_illegal {cmd arg : Word} (h : 13 ≤ (fieldOpc cmd).toNat) : decode cmd arg = .error .illegalOpcode := by
  have : findRow (fieldOpc cmd) opcodeTable = none := by
    generalize fieldOpc cmd = o at h
    revert o
    decide
  rw [decode, this]

end Sys2Proof
end

