-- ==== Sys2Proof/Laws/Flags.lean ====
section
/-! SUPPORT. The outcome words by their values, and the fields of STATUS. -/

namespace Sys2Proof.Machine

@[simp] theorem outcomeWord_true : outcomeWord true = 1 := by decide
@[simp] theorem outcomeWord_false : outcomeWord false = 0 := by decide

@[simp] theorem tickWord_ff : tickWord false false = 0 := by decide
@[simp] theorem tickWord_ft : tickWord false true = 1 := by decide
@[simp] theorem tickWord_tf : tickWord true false = 2 := by decide
@[simp] theorem tickWord_tt : tickWord true true = 3 := by decide

theorem gateOpen_iff (s : State) : gateOpen s = true ↔ s.tick.toNat % 3 = 0 := by
  unfold gateOpen
  exact decide_eq_true_iff

theorem gateOpen_eq_false_iff (s : State) : gateOpen s = false ↔ s.tick.toNat % 3 ≠ 0 := by
  unfold gateOpen
  exact decide_eq_false_iff_not

end Sys2Proof.Machine
end

