-- ==== Sys2Proof/Laws/Memory.lean ====
section
/-! SUPPORT. Byte arrays: reading after a write, and the canonical form that every memory operation keeps. -/

namespace Sys2Proof.Machine

/-! ## Lists of cells -/

theorem canonicalFrom_mono {lo lo' : Nat} (h : lo' ≤ lo) :
    ∀ {l : List Host.Cell}, canonicalFrom lo l = true → canonicalFrom lo' l = true
  | [], _ => rfl
  | (k, v) :: rest, hl => by
    simp only [canonicalFrom, Bool.and_eq_true, decide_eq_true_eq] at hl ⊢
    exact ⟨⟨h.trans hl.1.1, hl.1.2⟩, hl.2⟩

theorem lookupCell_of_lt {a lo : Nat} (h : a < lo) :
    ∀ {l : List Host.Cell}, canonicalFrom lo l = true → lookupCell l a = Memory.unlisted
  | [], _ => rfl
  | (k, v) :: rest, hl => by
    simp only [canonicalFrom, Bool.and_eq_true, decide_eq_true_eq] at hl
    have hk : a ≠ k := by omega
    simp only [lookupCell, if_neg hk]
    exact lookupCell_of_lt (lo := k + 1) (by omega) hl.2

theorem lookupCell_insertCell (a : Nat) (v : Byte) (b : Nat) :
    ∀ {lo : Nat} {l : List Host.Cell}, canonicalFrom lo l = true →
      lookupCell (insertCell l a v) b = if b = a then v else lookupCell l b
  | _, [], _ => by
    unfold insertCell
    split
    · next hv => split <;> simp_all [lookupCell]
    · simp [lookupCell]
  | lo, (k, w) :: rest, hl => by
    simp only [canonicalFrom, Bool.and_eq_true, decide_eq_true_eq] at hl
    have below : ∀ {c}, c < k + 1 → lookupCell rest c = Memory.unlisted :=
      fun hc => lookupCell_of_lt hc hl.2
    unfold insertCell
    by_cases hlt : a < k
    · have ha : lookupCell rest a = Memory.unlisted := below (by omega)
      have hak : a ≠ k := by omega
      by_cases hv : v = Memory.unlisted <;> by_cases hb : b = a <;>
        simp_all [lookupCell]
    · by_cases hak : a = k
      · subst hak
        have ha : lookupCell rest a = Memory.unlisted := below (by omega)
        by_cases hv : v = Memory.unlisted <;> by_cases hb : b = a <;>
          simp_all [lookupCell]
      · have ih := lookupCell_insertCell a v b hl.2
        simp only [if_neg hlt, if_neg hak, lookupCell, ih]
        by_cases hbk : b = k <;> by_cases hb : b = a <;> simp_all

theorem canonicalFrom_insertCell (a : Nat) (v : Byte) :
    ∀ {lo : Nat} {l : List Host.Cell}, lo ≤ a → canonicalFrom lo l = true →
      canonicalFrom lo (insertCell l a v) = true
  | lo, [], ha, _ => by
    unfold insertCell
    split <;> simp_all [canonicalFrom]
  | lo, (k, w) :: rest, ha, hl => by
    have hl' := hl
    simp only [canonicalFrom, Bool.and_eq_true, decide_eq_true_eq] at hl
    unfold insertCell
    by_cases hlt : a < k
    · by_cases hv : v = Memory.unlisted
      · simpa [hlt, hv] using hl'
      · simp only [hlt, hv, if_true, if_false, canonicalFrom, Bool.and_eq_true, decide_eq_true_eq]
        exact ⟨⟨ha, hv⟩, ⟨by omega, hl.1.2⟩, hl.2⟩
    · by_cases hak : a = k
      · subst hak
        by_cases hv : v = Memory.unlisted
        · simp only [hlt, hv, if_true, if_false]
          exact canonicalFrom_mono (by omega) hl.2
        · simp only [hlt, hv, if_true, if_false, canonicalFrom, Bool.and_eq_true, decide_eq_true_eq]
          exact ⟨⟨ha, hv⟩, hl.2⟩
      · simp only [hlt, hak, if_false, canonicalFrom, Bool.and_eq_true, decide_eq_true_eq]
        exact ⟨hl.1, canonicalFrom_insertCell a v (by omega) hl.2⟩

theorem mem_insertCell {a : Nat} {v : Byte} {c : Host.Cell} :
    ∀ {l : List Host.Cell}, c ∈ insertCell l a v → c.1 = a ∨ c ∈ l
  | [], h => by
    unfold insertCell at h
    split at h <;> simp_all
  | (k, w) :: rest, h => by
    unfold insertCell at h
    split at h
    · split at h
      · exact .inr h
      · rcases List.mem_cons.1 h with rfl | h
        · exact .inl rfl
        · exact .inr h
    · split at h
      · split at h
        · exact .inr (List.mem_cons_of_mem _ h)
        · rcases List.mem_cons.1 h with rfl | h
          · exact .inl rfl
          · exact .inr (List.mem_cons_of_mem _ h)
      · rcases List.mem_cons.1 h with rfl | h
        · exact .inr List.mem_cons_self
        · exact (mem_insertCell h).imp id (List.mem_cons_of_mem _)

theorem lookupCell_cellsOf_append (f : Nat → Byte) (l : List Host.Cell) (a : Nat) :
    ∀ (start count : Nat), lookupCell (cellsOf f start count ++ l) a =
      if start ≤ a ∧ a < start + count ∧ f a ≠ Memory.unlisted then f a else lookupCell l a
  | start, 0 => by
    have : ¬ (start ≤ a ∧ a < start + 0 ∧ f a ≠ Memory.unlisted) := by omega
    simp only [cellsOf, List.nil_append, if_neg this]
  | start, count + 1 => by
    have ih := lookupCell_cellsOf_append f l a (start + 1) count
    unfold cellsOf
    by_cases h0 : f start = Memory.unlisted
    · rw [if_pos h0, ih]
      by_cases has : a = start
      · subst has; simp [h0]
      · congr 1; simp only [eq_iff_iff]; constructor <;> rintro ⟨h1, h2, h3⟩ <;> refine ⟨by omega, by omega, h3⟩
    · rw [if_neg h0, List.cons_append, lookupCell, ih]
      by_cases has : a = start
      · subst has; simp [h0]
      · rw [if_neg has]
        congr 1; simp only [eq_iff_iff]; constructor <;> rintro ⟨h1, h2, h3⟩ <;> refine ⟨by omega, by omega, h3⟩

theorem lookupCell_filter_ge (n a : Nat) (h : n ≤ a) :
    ∀ l : List Host.Cell, lookupCell (l.filter (fun c => decide (n ≤ c.1))) a = lookupCell l a
  | [] => rfl
  | (k, v) :: rest => by
    have ih := lookupCell_filter_ge n a h rest
    by_cases hk : n ≤ k
    · simp only [List.filter_cons, hk, decide_true, if_true, lookupCell, ih]
    · have : a ≠ k := by omega
      simp only [List.filter_cons, hk, decide_false, Bool.false_eq_true, if_false, lookupCell, if_neg this, ih]

theorem lookupCell_filter_lt (n a : Nat) (h : a < n) :
    ∀ l : List Host.Cell, lookupCell (l.filter (fun c => decide (n ≤ c.1))) a = Memory.unlisted
  | [] => rfl
  | (k, v) :: rest => by
    have ih := lookupCell_filter_lt n a h rest
    by_cases hk : n ≤ k
    · have : a ≠ k := by omega
      simp only [List.filter_cons, hk, decide_true, if_true, lookupCell, if_neg this, ih]
    · simp only [List.filter_cons, hk, decide_false, Bool.false_eq_true, if_false, ih]

theorem canonicalFrom_filter (n : Nat) :
    ∀ {lo : Nat} {l : List Host.Cell}, canonicalFrom lo l = true →
      canonicalFrom (max lo n) (l.filter (fun c => decide (n ≤ c.1))) = true
  | _, [], _ => rfl
  | lo, (k, v) :: rest, hl => by
    simp only [canonicalFrom, Bool.and_eq_true, decide_eq_true_eq] at hl
    have ih := canonicalFrom_filter n hl.2
    by_cases hk : n ≤ k
    · simp only [List.filter_cons, hk, decide_true, if_true, canonicalFrom, Bool.and_eq_true, decide_eq_true_eq]
      exact ⟨⟨by omega, hl.1.2⟩, canonicalFrom_mono (by omega) ih⟩
    · simp only [List.filter_cons, hk, decide_false, Bool.false_eq_true, if_false]
      exact canonicalFrom_mono (by omega) ih

theorem canonicalFrom_cellsOf_append (f : Nat → Byte) {l : List Host.Cell} :
    ∀ (start count : Nat), canonicalFrom (start + count) l = true →
      canonicalFrom start (cellsOf f start count ++ l) = true
  | _, 0, h => h
  | start, count + 1, h => by
    have ih := canonicalFrom_cellsOf_append f (start + 1) count
      (l := l) (by rwa [show start + 1 + count = start + (count + 1) by omega])
    unfold cellsOf
    split
    · exact canonicalFrom_mono (by omega) ih
    · next h0 =>
      simp only [List.cons_append, canonicalFrom, Bool.and_eq_true, decide_eq_true_eq]
      exact ⟨⟨le_rfl, h0⟩, ih⟩

theorem mem_cellsOf {f : Nat → Byte} {c : Host.Cell} :
    ∀ {start count : Nat}, c ∈ cellsOf f start count → c.1 < start + count
  | _, 0, h => by simp [cellsOf] at h
  | start, count + 1, h => by
    unfold cellsOf at h
    split at h
    · have := mem_cellsOf h; omega
    · rcases List.mem_cons.1 h with rfl | h
      · exact Nat.lt_add_of_pos_right (Nat.succ_pos _)
      · have := mem_cellsOf h; omega

/-! ## Memory -/

/-- A read after a write to the same address gives the value written; every other address reads as before
(spec/20_memory.md R56). -/
theorem Memory.read_write {m : Memory} (h : m.wf = true) (a : Nat) (v : Byte) (b : Nat) :
    (m.write a v).read b = if b = a then v else m.read b :=
  lookupCell_insertCell a v b h

theorem Memory.wf_write {m : Memory} (h : m.wf = true) (a : Nat) (v : Byte) : (m.write a v).wf = true :=
  canonicalFrom_insertCell a v (Nat.zero_le a) h

theorem Memory.below_iff {m : Memory} {size : Nat} : m.below size = true ↔ ∀ c ∈ m.cells, c.1 < size := by
  simp [Memory.below]

theorem Memory.below_write {m : Memory} {size : Nat} (h : m.below size = true) {a : Nat} (ha : a < size) (v : Byte) :
    (m.write a v).below size = true := by
  rw [Memory.below_iff] at h ⊢
  intro c hc
  rcases mem_insertCell hc with rfl | hc
  · exact ha
  · exact h c hc

/-- A whole-array write gives every address below `size` its new value and leaves the others alone. -/
theorem Memory.read_writeAll (m : Memory) (size : Nat) (f : Nat → Byte) (a : Nat) :
    (m.writeAll size f).read a = if a < size then f a else m.read a := by
  unfold Memory.writeAll Memory.read
  rw [lookupCell_cellsOf_append]
  by_cases ha : a < size
  · rw [lookupCell_filter_lt size a ha]
    by_cases h0 : f a = Memory.unlisted <;> simp [ha, h0]
  · rw [lookupCell_filter_ge size a (by omega)]
    have : ¬ (0 ≤ a ∧ a < 0 + size ∧ f a ≠ Memory.unlisted) := by omega
    rw [if_neg this, if_neg ha]

theorem Memory.wf_writeAll {m : Memory} (h : m.wf = true) (size : Nat) (f : Nat → Byte) :
    (m.writeAll size f).wf = true := by
  refine canonicalFrom_cellsOf_append f 0 size ?_
  have := canonicalFrom_filter size h
  exact canonicalFrom_mono (by omega) this

theorem Memory.below_writeAll {m : Memory} {size : Nat} (h : m.below size = true) (f : Nat → Byte) :
    (m.writeAll size f).below size = true := by
  rw [Memory.below_iff] at h ⊢
  intro c hc
  rcases List.mem_append.1 hc with hc | hc
  · have := mem_cellsOf hc; omega
  · exact h c (List.mem_of_mem_filter hc)

/-- Writing an element sets its three channels and leaves every other byte alone. -/
theorem Memory.read_writeElement {m : Memory} (h : m.wf = true) (e : Nat) (c : Rgb) (a : Nat) :
    (m.writeElement e c).read a =
      if a = 3 * e then c.r else if a = 3 * e + 1 then c.g else if a = 3 * e + 2 then c.b else m.read a := by
  unfold Memory.writeElement
  rw [Memory.read_write (Memory.wf_write (Memory.wf_write h _ _) _ _),
    Memory.read_write (Memory.wf_write h _ _), Memory.read_write h]
  by_cases h0 : a = 3 * e
  · have h1 : a ≠ 3 * e + 1 := by omega
    have h2 : a ≠ 3 * e + 2 := by omega
    rw [if_neg h2, if_neg h1, if_pos h0, if_pos h0]
  · by_cases h1 : a = 3 * e + 1
    · have h2 : a ≠ 3 * e + 2 := by omega
      rw [if_neg h2, if_pos h1, if_pos h1, if_neg h0]
    · simp only [if_neg h0, if_neg h1]

theorem Memory.wf_writeElement {m : Memory} (h : m.wf = true) (e : Nat) (c : Rgb) :
    (m.writeElement e c).wf = true :=
  Memory.wf_write (Memory.wf_write (Memory.wf_write h _ _) _ _) _ _

theorem Memory.below_writeElement {m : Memory} {size : Nat} (h : m.below size = true) {e : Nat}
    (he : 3 * e + 2 < size) (c : Rgb) : (m.writeElement e c).below size = true :=
  Memory.below_write (Memory.below_write (Memory.below_write h (by omega) _) (by omega) _) he _

/-- Canonical cell lists that read alike are equal. -/
theorem cells_ext : ∀ {lo : Nat} {l l' : List Host.Cell}, canonicalFrom lo l = true → canonicalFrom lo l' = true →
    (∀ a, lookupCell l a = lookupCell l' a) → l = l'
  | _, [], [], _, _, _ => rfl
  | _, [], (k, v) :: r, _, h', h => by
    have := h k
    simp only [canonicalFrom, Bool.and_eq_true, decide_eq_true_eq] at h'
    simp only [lookupCell, if_true] at this
    exact absurd this.symm h'.1.2
  | _, (k, v) :: r, [], h, _, e => by
    have := e k
    simp only [canonicalFrom, Bool.and_eq_true, decide_eq_true_eq] at h
    simp only [lookupCell, if_true] at this
    exact absurd this h.1.2
  | lo, (k, v) :: r, (k', v') :: r', h, h', e => by
    simp only [canonicalFrom, Bool.and_eq_true, decide_eq_true_eq] at h h'
    have hkk : k = k' := by
      rcases Nat.lt_trichotomy k k' with hlt | heq | hgt
      · have := e k
        rw [lookupCell, if_pos rfl, lookupCell, if_neg (by omega), lookupCell_of_lt (by omega) h'.2] at this
        exact absurd this h.1.2
      · exact heq
      · have := e k'
        rw [lookupCell, if_neg (by omega), lookupCell_of_lt (by omega) h.2, lookupCell, if_pos rfl] at this
        exact absurd this.symm h'.1.2
    subst hkk
    have hv : v = v' := by simpa [lookupCell] using e k
    have hr : r = r' := by
      refine cells_ext h.2 h'.2 fun a => ?_
      by_cases ha : a = k
      · subst ha
        rw [lookupCell_of_lt (by omega) h.2, lookupCell_of_lt (by omega) h'.2]
      · simpa [lookupCell, ha] using e a
    rw [hv, hr]

/-- Equal memories are equal data: two canonical arrays that read alike are equal. -/
theorem Memory.ext_of_wf {m m' : Memory} (h : m.wf = true) (h' : m'.wf = true) (e : ∀ a, m.read a = m'.read a) :
    m = m' := by
  cases m; cases m'
  exact congrArg Memory.mk (cells_ext h h' e)

/-- The canonical form holds after reset. -/
theorem wf_reset (cfg : Config) (testMode : Bool) :
    (State.resetWith cfg testMode).fb.wf = true ∧ (State.resetWith cfg testMode).scr.wf = true :=
  ⟨rfl, rfl⟩

end Sys2Proof.Machine
end

