-- ==== Sys2Proof/Laws/State.lean ====
section
/-! SUPPORT. What each update of the state does to each field, one lemma per field per update, true by definition. -/

namespace Sys2Proof.Machine

/-! ## respond -/

@[simp] theorem State.respond_cfg (s : State) (v : Word) : (s.respond v).cfg = s.cfg := rfl
@[simp] theorem State.respond_fb (s : State) (v : Word) : (s.respond v).fb = s.fb := rfl
@[simp] theorem State.respond_scr (s : State) (v : Word) : (s.respond v).scr = s.scr := rfl
@[simp] theorem State.respond_scrAlloc (s : State) (v : Word) : (s.respond v).scrAlloc = s.scrAlloc := rfl
@[simp] theorem State.respond_tick (s : State) (v : Word) : (s.respond v).tick = s.tick := rfl
@[simp] theorem State.respond_lastEvent (s : State) (v : Word) : (s.respond v).lastEvent = s.lastEvent := rfl
@[simp] theorem State.respond_err (s : State) (v : Word) : (s.respond v).err = s.err := rfl
@[simp] theorem State.respond_firstErr (s : State) (v : Word) : (s.respond v).firstErr = s.firstErr := rfl
@[simp] theorem State.respond_mode (s : State) (v : Word) : (s.respond v).mode = s.mode := rfl
@[simp] theorem State.respond_clk (s : State) (v : Word) : (s.respond v).clk = s.clk := rfl
@[simp] theorem State.respond_dat (s : State) (v : Word) : (s.respond v).dat = s.dat := rfl
@[simp] theorem State.respond_trace (s : State) (v : Word) : (s.respond v).trace = s.trace := rfl
@[simp] theorem State.respond_response (s : State) (v : Word) : (s.respond v).response = some { value := v, err := false } := rfl
@[simp] theorem State.respond_pending (s : State) (v : Word) : (s.respond v).pending = s.pending := rfl
@[simp] theorem State.respond_hold (s : State) (v : Word) : (s.respond v).hold = s.hold := rfl
@[simp] theorem State.respond_env (s : State) (v : Word) : (s.respond v).env = s.env := rfl
@[simp] theorem State.respond_rand (s : State) (v : Word) : (s.respond v).rand = s.rand := rfl
@[simp] theorem State.respond_drawCount (s : State) (v : Word) : (s.respond v).drawCount = s.drawCount := rfl

/-! ## turnAway -/

@[simp] theorem State.turnAway_cfg (s : State) : (s.turnAway).cfg = s.cfg := rfl
@[simp] theorem State.turnAway_fb (s : State) : (s.turnAway).fb = s.fb := rfl
@[simp] theorem State.turnAway_scr (s : State) : (s.turnAway).scr = s.scr := rfl
@[simp] theorem State.turnAway_scrAlloc (s : State) : (s.turnAway).scrAlloc = s.scrAlloc := rfl
@[simp] theorem State.turnAway_tick (s : State) : (s.turnAway).tick = s.tick := rfl
@[simp] theorem State.turnAway_lastEvent (s : State) : (s.turnAway).lastEvent = s.lastEvent := rfl
@[simp] theorem State.turnAway_err (s : State) : (s.turnAway).err = s.err := rfl
@[simp] theorem State.turnAway_firstErr (s : State) : (s.turnAway).firstErr = s.firstErr := rfl
@[simp] theorem State.turnAway_mode (s : State) : (s.turnAway).mode = s.mode := rfl
@[simp] theorem State.turnAway_clk (s : State) : (s.turnAway).clk = s.clk := rfl
@[simp] theorem State.turnAway_dat (s : State) : (s.turnAway).dat = s.dat := rfl
@[simp] theorem State.turnAway_trace (s : State) : (s.turnAway).trace = s.trace := rfl
@[simp] theorem State.turnAway_response (s : State) : (s.turnAway).response = some { value := 0, err := true } := rfl
@[simp] theorem State.turnAway_pending (s : State) : (s.turnAway).pending = s.pending := rfl
@[simp] theorem State.turnAway_hold (s : State) : (s.turnAway).hold = s.hold := rfl
@[simp] theorem State.turnAway_env (s : State) : (s.turnAway).env = s.env := rfl
@[simp] theorem State.turnAway_rand (s : State) : (s.turnAway).rand = s.rand := rfl
@[simp] theorem State.turnAway_drawCount (s : State) : (s.turnAway).drawCount = s.drawCount := rfl

/-! ## raise -/

@[simp] theorem State.raise_cfg (s : State) (e : CmdError) : (s.raise e).cfg = s.cfg := rfl
@[simp] theorem State.raise_fb (s : State) (e : CmdError) : (s.raise e).fb = s.fb := rfl
@[simp] theorem State.raise_scr (s : State) (e : CmdError) : (s.raise e).scr = s.scr := rfl
@[simp] theorem State.raise_scrAlloc (s : State) (e : CmdError) : (s.raise e).scrAlloc = s.scrAlloc := rfl
@[simp] theorem State.raise_tick (s : State) (e : CmdError) : (s.raise e).tick = s.tick := rfl
@[simp] theorem State.raise_lastEvent (s : State) (e : CmdError) : (s.raise e).lastEvent = s.lastEvent := rfl
@[simp] theorem State.raise_err (s : State) (e : CmdError) : (s.raise e).err = true := rfl
@[simp] theorem State.raise_firstErr (s : State) (e : CmdError) : (s.raise e).firstErr = if s.err then s.firstErr else errorCode e := rfl
@[simp] theorem State.raise_mode (s : State) (e : CmdError) : (s.raise e).mode = s.mode := rfl
@[simp] theorem State.raise_clk (s : State) (e : CmdError) : (s.raise e).clk = s.clk := rfl
@[simp] theorem State.raise_dat (s : State) (e : CmdError) : (s.raise e).dat = s.dat := rfl
@[simp] theorem State.raise_trace (s : State) (e : CmdError) : (s.raise e).trace = s.trace := rfl
@[simp] theorem State.raise_response (s : State) (e : CmdError) : (s.raise e).response = some { value := 0, err := true } := rfl
@[simp] theorem State.raise_pending (s : State) (e : CmdError) : (s.raise e).pending = s.pending := rfl
@[simp] theorem State.raise_hold (s : State) (e : CmdError) : (s.raise e).hold = s.hold := rfl
@[simp] theorem State.raise_env (s : State) (e : CmdError) : (s.raise e).env = s.env := rfl
@[simp] theorem State.raise_rand (s : State) (e : CmdError) : (s.raise e).rand = s.rand := rfl
@[simp] theorem State.raise_drawCount (s : State) (e : CmdError) : (s.raise e).drawCount = s.drawCount := rfl

/-! ## emit -/

@[simp] theorem State.emit_cfg (s : State) (events : List Event) : (s.emit events).cfg = s.cfg := rfl
@[simp] theorem State.emit_fb (s : State) (events : List Event) : (s.emit events).fb = s.fb := rfl
@[simp] theorem State.emit_scr (s : State) (events : List Event) : (s.emit events).scr = s.scr := rfl
@[simp] theorem State.emit_scrAlloc (s : State) (events : List Event) : (s.emit events).scrAlloc = s.scrAlloc := rfl
@[simp] theorem State.emit_tick (s : State) (events : List Event) : (s.emit events).tick = s.tick := rfl
@[simp] theorem State.emit_lastEvent (s : State) (events : List Event) : (s.emit events).lastEvent = s.lastEvent := rfl
@[simp] theorem State.emit_err (s : State) (events : List Event) : (s.emit events).err = s.err := rfl
@[simp] theorem State.emit_firstErr (s : State) (events : List Event) : (s.emit events).firstErr = s.firstErr := rfl
@[simp] theorem State.emit_mode (s : State) (events : List Event) : (s.emit events).mode = s.mode := rfl
@[simp] theorem State.emit_clk (s : State) (events : List Event) : (s.emit events).clk = clkAfter s.clk events := rfl
@[simp] theorem State.emit_dat (s : State) (events : List Event) : (s.emit events).dat = datAfter s.dat events := rfl
@[simp] theorem State.emit_trace (s : State) (events : List Event) : (s.emit events).trace = s.trace ++ events := rfl
@[simp] theorem State.emit_response (s : State) (events : List Event) : (s.emit events).response = s.response := rfl
@[simp] theorem State.emit_pending (s : State) (events : List Event) : (s.emit events).pending = s.pending := rfl
@[simp] theorem State.emit_hold (s : State) (events : List Event) : (s.emit events).hold = s.hold := rfl
@[simp] theorem State.emit_env (s : State) (events : List Event) : (s.emit events).env = s.env := rfl
@[simp] theorem State.emit_rand (s : State) (events : List Event) : (s.emit events).rand = s.rand := rfl
@[simp] theorem State.emit_drawCount (s : State) (events : List Event) : (s.emit events).drawCount = s.drawCount := rfl

/-! ## afterDraw -/

@[simp] theorem State.afterDraw_cfg (s : State) : (s.afterDraw).cfg = s.cfg := rfl
@[simp] theorem State.afterDraw_fb (s : State) : (s.afterDraw).fb = s.fb := rfl
@[simp] theorem State.afterDraw_scr (s : State) : (s.afterDraw).scr = s.scr := rfl
@[simp] theorem State.afterDraw_scrAlloc (s : State) : (s.afterDraw).scrAlloc = s.scrAlloc := rfl
@[simp] theorem State.afterDraw_tick (s : State) : (s.afterDraw).tick = s.tick := rfl
@[simp] theorem State.afterDraw_lastEvent (s : State) : (s.afterDraw).lastEvent = s.lastEvent := rfl
@[simp] theorem State.afterDraw_err (s : State) : (s.afterDraw).err = s.err := rfl
@[simp] theorem State.afterDraw_firstErr (s : State) : (s.afterDraw).firstErr = s.firstErr := rfl
@[simp] theorem State.afterDraw_mode (s : State) : (s.afterDraw).mode = s.mode := rfl
@[simp] theorem State.afterDraw_clk (s : State) : (s.afterDraw).clk = s.clk := rfl
@[simp] theorem State.afterDraw_dat (s : State) : (s.afterDraw).dat = s.dat := rfl
@[simp] theorem State.afterDraw_trace (s : State) : (s.afterDraw).trace = s.trace := rfl
@[simp] theorem State.afterDraw_response (s : State) : (s.afterDraw).response = s.response := rfl
@[simp] theorem State.afterDraw_pending (s : State) : (s.afterDraw).pending = s.pending := rfl
@[simp] theorem State.afterDraw_hold (s : State) : (s.afterDraw).hold = s.hold := rfl
@[simp] theorem State.afterDraw_env (s : State) : (s.afterDraw).env = s.env := rfl
@[simp] theorem State.afterDraw_rand (s : State) : (s.afterDraw).rand = s.rand.tail := rfl
@[simp] theorem State.afterDraw_drawCount (s : State) : (s.afterDraw).drawCount = s.drawCount + 1 := rfl

/-! ## countTick -/

@[simp] theorem State.countTick_cfg (s : State) : (s.countTick).cfg = s.cfg := rfl
@[simp] theorem State.countTick_fb (s : State) : (s.countTick).fb = s.fb := rfl
@[simp] theorem State.countTick_scr (s : State) : (s.countTick).scr = s.scr := rfl
@[simp] theorem State.countTick_scrAlloc (s : State) : (s.countTick).scrAlloc = s.scrAlloc := rfl
@[simp] theorem State.countTick_tick (s : State) : (s.countTick).tick = s.wrapW (s.tick + 1) := rfl
@[simp] theorem State.countTick_lastEvent (s : State) : (s.countTick).lastEvent = s.lastEvent := rfl
@[simp] theorem State.countTick_err (s : State) : (s.countTick).err = s.err := rfl
@[simp] theorem State.countTick_firstErr (s : State) : (s.countTick).firstErr = s.firstErr := rfl
@[simp] theorem State.countTick_mode (s : State) : (s.countTick).mode = s.mode := rfl
@[simp] theorem State.countTick_clk (s : State) : (s.countTick).clk = s.clk := rfl
@[simp] theorem State.countTick_dat (s : State) : (s.countTick).dat = s.dat := rfl
@[simp] theorem State.countTick_trace (s : State) : (s.countTick).trace = s.trace := rfl
@[simp] theorem State.countTick_response (s : State) : (s.countTick).response = s.response := rfl
@[simp] theorem State.countTick_pending (s : State) : (s.countTick).pending = s.pending := rfl
@[simp] theorem State.countTick_hold (s : State) : (s.countTick).hold = s.hold := rfl
@[simp] theorem State.countTick_env (s : State) : (s.countTick).env = s.env := rfl
@[simp] theorem State.countTick_rand (s : State) : (s.countTick).rand = s.rand := rfl
@[simp] theorem State.countTick_drawCount (s : State) : (s.countTick).drawCount = s.drawCount := rfl

/-! ## afterMove -/

@[simp] theorem State.afterMove_cfg (s : State) : (s.afterMove).cfg = s.cfg := rfl
@[simp] theorem State.afterMove_fb (s : State) : (s.afterMove).fb = s.fb := rfl
@[simp] theorem State.afterMove_scr (s : State) : (s.afterMove).scr = s.scr := rfl
@[simp] theorem State.afterMove_scrAlloc (s : State) : (s.afterMove).scrAlloc = s.scrAlloc := rfl
@[simp] theorem State.afterMove_tick (s : State) : (s.afterMove).tick = s.tick := rfl
@[simp] theorem State.afterMove_lastEvent (s : State) : (s.afterMove).lastEvent = s.lastEvent := rfl
@[simp] theorem State.afterMove_err (s : State) : (s.afterMove).err = s.err := rfl
@[simp] theorem State.afterMove_firstErr (s : State) : (s.afterMove).firstErr = s.firstErr := rfl
@[simp] theorem State.afterMove_mode (s : State) : (s.afterMove).mode = s.mode := rfl
@[simp] theorem State.afterMove_clk (s : State) : (s.afterMove).clk = s.clk := rfl
@[simp] theorem State.afterMove_dat (s : State) : (s.afterMove).dat = s.dat := rfl
@[simp] theorem State.afterMove_trace (s : State) : (s.afterMove).trace = s.trace := rfl
@[simp] theorem State.afterMove_response (s : State) : (s.afterMove).response = s.response := rfl
@[simp] theorem State.afterMove_pending (s : State) : (s.afterMove).pending = s.pending := rfl
@[simp] theorem State.afterMove_hold (s : State) : (s.afterMove).hold = s.hold := rfl
@[simp] theorem State.afterMove_env (s : State) : (s.afterMove).env = s.env.tail := rfl
@[simp] theorem State.afterMove_rand (s : State) : (s.afterMove).rand = s.rand := rfl
@[simp] theorem State.afterMove_drawCount (s : State) : (s.afterMove).drawCount = s.drawCount := rfl

/-! ## powerOn -/

@[simp] theorem State.powerOn_cfg (s : State) (testMode : Bool) : (s.powerOn testMode).cfg = s.cfg := rfl
@[simp] theorem State.powerOn_fb (s : State) (testMode : Bool) : (s.powerOn testMode).fb = { cells := [] } := rfl
@[simp] theorem State.powerOn_scr (s : State) (testMode : Bool) : (s.powerOn testMode).scr = { cells := [] } := rfl
@[simp] theorem State.powerOn_scrAlloc (s : State) (testMode : Bool) : (s.powerOn testMode).scrAlloc = false := rfl
@[simp] theorem State.powerOn_tick (s : State) (testMode : Bool) : (s.powerOn testMode).tick = 0 := rfl
@[simp] theorem State.powerOn_lastEvent (s : State) (testMode : Bool) : (s.powerOn testMode).lastEvent = 0 := rfl
@[simp] theorem State.powerOn_err (s : State) (testMode : Bool) : (s.powerOn testMode).err = false := rfl
@[simp] theorem State.powerOn_firstErr (s : State) (testMode : Bool) : (s.powerOn testMode).firstErr = 0 := rfl
@[simp] theorem State.powerOn_mode (s : State) (testMode : Bool) : (s.powerOn testMode).mode = if testMode then .test else .autonomous := rfl
@[simp] theorem State.powerOn_clk (s : State) (testMode : Bool) : (s.powerOn testMode).clk = false := rfl
@[simp] theorem State.powerOn_dat (s : State) (testMode : Bool) : (s.powerOn testMode).dat = false := rfl
@[simp] theorem State.powerOn_trace (s : State) (testMode : Bool) : (s.powerOn testMode).trace = [] := rfl
@[simp] theorem State.powerOn_response (s : State) (testMode : Bool) : (s.powerOn testMode).response = none := rfl
@[simp] theorem State.powerOn_pending (s : State) (testMode : Bool) : (s.powerOn testMode).pending = none := rfl
@[simp] theorem State.powerOn_hold (s : State) (testMode : Bool) : (s.powerOn testMode).hold = s.hold := rfl
@[simp] theorem State.powerOn_env (s : State) (testMode : Bool) : (s.powerOn testMode).env = s.env := rfl
@[simp] theorem State.powerOn_rand (s : State) (testMode : Bool) : (s.powerOn testMode).rand = s.rand := rfl
@[simp] theorem State.powerOn_drawCount (s : State) (testMode : Bool) : (s.powerOn testMode).drawCount = s.drawCount := rfl

/-! ## takeSnapshot -/

@[simp] theorem takeSnapshot_cfg (s : State) : (takeSnapshot s).cfg = s.cfg := rfl
@[simp] theorem takeSnapshot_fb (s : State) : (takeSnapshot s).fb = s.fb := rfl
@[simp] theorem takeSnapshot_scr (s : State) : (takeSnapshot s).scr = s.scr.writeAll s.size s.fb.read := rfl
@[simp] theorem takeSnapshot_scrAlloc (s : State) : (takeSnapshot s).scrAlloc = true := rfl
@[simp] theorem takeSnapshot_tick (s : State) : (takeSnapshot s).tick = s.tick := rfl
@[simp] theorem takeSnapshot_lastEvent (s : State) : (takeSnapshot s).lastEvent = s.lastEvent := rfl
@[simp] theorem takeSnapshot_err (s : State) : (takeSnapshot s).err = s.err := rfl
@[simp] theorem takeSnapshot_firstErr (s : State) : (takeSnapshot s).firstErr = s.firstErr := rfl
@[simp] theorem takeSnapshot_mode (s : State) : (takeSnapshot s).mode = s.mode := rfl
@[simp] theorem takeSnapshot_clk (s : State) : (takeSnapshot s).clk = s.clk := rfl
@[simp] theorem takeSnapshot_dat (s : State) : (takeSnapshot s).dat = s.dat := rfl
@[simp] theorem takeSnapshot_trace (s : State) : (takeSnapshot s).trace = s.trace := rfl
@[simp] theorem takeSnapshot_response (s : State) : (takeSnapshot s).response = s.response := rfl
@[simp] theorem takeSnapshot_pending (s : State) : (takeSnapshot s).pending = s.pending := rfl
@[simp] theorem takeSnapshot_hold (s : State) : (takeSnapshot s).hold = s.hold := rfl
@[simp] theorem takeSnapshot_env (s : State) : (takeSnapshot s).env = s.env := rfl
@[simp] theorem takeSnapshot_rand (s : State) : (takeSnapshot s).rand = s.rand := rfl
@[simp] theorem takeSnapshot_drawCount (s : State) : (takeSnapshot s).drawCount = s.drawCount := rfl

end Sys2Proof.Machine
end

