-- ==== Sys2Proof/Laws/Ops.lean ====
section
/-! SUPPORT. What each shared operation can do: emitting, drawing, the W_TICK-bit arithmetic, the command port. -/

namespace Sys2Proof.Machine

/-! ## Emitting -/

theorem clkAfter_append (b : Bool) : ∀ xs ys : List Event, clkAfter b (xs ++ ys) = clkAfter (clkAfter b xs) ys := by
  intro xs ys
  induction xs generalizing b with
  | nil => rfl
  | cons e xs ih => cases e <;> exact ih _

theorem datAfter_append (b : Bool) : ∀ xs ys : List Event, datAfter b (xs ++ ys) = datAfter (datAfter b xs) ys := by
  intro xs ys
  induction xs generalizing b with
  | nil => rfl
  | cons e xs ih => cases e <;> exact ih _

/-- Emitting two lists is emitting them one after the other (spec/20_memory.md R58). -/
theorem State.emit_append (s : State) (xs ys : List Event) : s.emit (xs ++ ys) = (s.emit xs).emit ys := by
  simp only [State.emit, clkAfter_append, datAfter_append, List.append_assoc]

theorem State.emit_nil (s : State) : s.emit [] = s := by
  simp only [State.emit, List.append_nil]; rfl

@[simp] theorem clkAfter_delayMsEvents (b : Bool) (n : Nat) : clkAfter b (delayMsEvents n) = b := by
  unfold delayMsEvents; split <;> rfl

@[simp] theorem clkAfter_delayUsEvents (b : Bool) (n : Nat) : clkAfter b (delayUsEvents n) = b := by
  unfold delayUsEvents; split <;> rfl

@[simp] theorem datAfter_delayMsEvents (b : Bool) (n : Nat) : datAfter b (delayMsEvents n) = b := by
  unfold delayMsEvents; split <;> rfl

@[simp] theorem datAfter_delayUsEvents (b : Bool) (n : Nat) : datAfter b (delayUsEvents n) = b := by
  unfold delayUsEvents; split <;> rfl

/-! ## Drawing (spec/10_state.md R38) -/

theorem free_in_range {lo hi : Nat} (h : lo < hi) (v : Nat) : lo ≤ lo + v % (hi - lo) ∧ lo + v % (hi - lo) < hi := by
  have := Nat.mod_lt v (show 0 < hi - lo by omega)
  omega

/-- A draw from a nonempty range lies in it. -/
theorem State.drawValue_in_range (s : State) {lo hi : Nat} (h : lo < hi) :
    lo ≤ s.drawValue lo hi ∧ s.drawValue lo hi < hi := by
  unfold State.drawValue
  split
  · exact free_in_range h _
  · split
    · next hr => exact hr
    · exact free_in_range h _

/-- An answer inside the range is the value drawn. -/
theorem State.drawValue_of_answer {s : State} {lo hi v : Nat} {rest : List Nat} (h : s.rand = v :: rest)
    (hlo : lo ≤ v) (hhi : v < hi) : s.drawValue lo hi = v := by
  unfold State.drawValue
  rw [h]
  exact if_pos ⟨hlo, hhi⟩

/-- A draw depends on the channel and the number of draws taken, on nothing else. -/
theorem State.drawValue_congr {s t : State} (hr : s.rand = t.rand) (hc : s.drawCount = t.drawCount) (lo hi : Nat) :
    s.drawValue lo hi = t.drawValue lo hi := by
  unfold State.drawValue
  rw [hr, hc]

/-! ## W_TICK-bit arithmetic (spec/00_scope.md R12) -/

theorem State.wrapW_toNat (s : State) (x : Word) : (s.wrapW x).toNat = x.toNat % 2 ^ s.cfg.wTick := by
  unfold State.wrapW
  rw [BitVec.toNat_ofNat]
  exact Nat.mod_eq_of_lt (lt_of_le_of_lt (Nat.mod_le _ _) x.isLt)

theorem State.wrapW_lt (s : State) (x : Word) : (s.wrapW x).toNat < 2 ^ s.cfg.wTick := by
  rw [State.wrapW_toNat]
  exact Nat.mod_lt _ s.cfg.pow_wTick_pos

/-- The difference of two registers modulo 2^W_TICK, over the integers. -/
theorem State.wrapW_sub (s : State) (x y : Word) :
    ((s.wrapW (x - y)).toNat : Int) = ((x.toNat : Int) - y.toNat) % 2 ^ s.cfg.wTick := by
  rw [State.wrapW_toNat, BitVec.toNat_sub, Nat.mod_mod_of_dvd _ s.cfg.pow_wTick_dvd]
  have hy := y.isLt
  obtain ⟨k, hk⟩ := s.cfg.pow_wTick_dvd
  push_cast
  rw [Nat.cast_sub hy.le]
  have : ((2 ^ 32 : Nat) : Int) - (y.toNat : Int) + x.toNat = (x.toNat : Int) - y.toNat + 2 ^ s.cfg.wTick * k := by
    rw [hk]; push_cast; ring
  rw [this, Int.add_mul_emod_self_left]

/-- The increment of a register modulo 2^W_TICK. -/
theorem State.wrapW_add_one (s : State) (x : Word) :
    s.wrapW (x + 1) = BitVec.ofNat 32 ((x.toNat + 1) % 2 ^ s.cfg.wTick) := by
  unfold State.wrapW
  rw [BitVec.toNat_add, Nat.mod_mod_of_dvd _ s.cfg.pow_wTick_dvd]
  rfl

/-! ## Operand checks (spec/20_memory.md R54) -/

theorem State.validIndex_iff (s : State) (idx : Word) : s.validIndex idx = true ↔ idx.toNat < s.cfg.n := by
  unfold State.validIndex
  exact decide_eq_true_iff

theorem State.validAddr_iff (s : State) (addr : Word) : s.validAddr addr = true ↔ addr.toNat < 3 * s.cfg.n := by
  unfold State.validAddr
  exact decide_eq_true_iff

theorem State.validDraw_iff (s : State) (r : Byte) :
    s.validDraw r = true ↔ s.cfg.flkLo ≤ r.toNat ∧ r.toNat < s.cfg.flkHi := by
  unfold State.validDraw
  rw [Bool.and_eq_true, decide_eq_true_iff, decide_eq_true_iff]

/-! ## The command port (spec/60_exceptions.md R224, R226) -/

theorem State.not_busy_of_idle {s : State} (hp : s.pending = none) : s.busy = false := by
  unfold State.busy
  split
  · rfl
  · rw [hp]; rfl

theorem State.not_busy_of_autonomous {s : State} (hm : s.mode = .autonomous) : s.busy = false := by
  unfold State.busy
  rw [hm]

theorem State.busy_iff {s : State} : s.busy = true ↔ s.mode = .test ∧ s.pending ≠ none := by
  unfold State.busy
  cases s.mode <;> cases s.pending <;> simp

theorem State.busy_eq_false_iff {s : State} : s.busy = false ↔ s.mode = .autonomous ∨ s.pending = none := by
  unfold State.busy
  cases s.mode <;> cases s.pending <;> simp

theorem State.command_of_busy {s : State} (h : s.busy = true) (inspects : Bool) (run : State → State) :
    s.command inspects run = s := if_pos h

theorem State.command_of_admits {s : State} {inspects : Bool} (hb : s.busy = false) (h : s.admits inspects = true)
    (run : State → State) : s.command inspects run = run s := by
  unfold State.command
  rw [hb, h]
  rfl

theorem State.command_of_not_admits {s : State} {inspects : Bool} (hb : s.busy = false)
    (h : s.admits inspects = false) (run : State → State) : s.command inspects run = s.turnAway := by
  unfold State.command
  rw [hb, h]
  rfl

theorem State.admits_of_ready {s : State} (hm : s.mode = .test) (he : s.err = false) (inspects : Bool) :
    s.admits inspects = true := by
  simp [State.admits, hm, he]

theorem State.admits_inspect {s : State} (hm : s.mode = .test) : s.admits true = true := by
  simp [State.admits, hm]

theorem State.admits_faulted {s : State} (he : s.err = true) : s.admits false = false := by
  unfold State.admits
  split <;> simp [he]

theorem State.admits_autonomous {s : State} (hm : s.mode = .autonomous) (inspects : Bool) :
    s.admits inspects = false := by
  simp [State.admits, hm]

/-- Everything a command at the port can do: it is not taken while an operation runs in test mode; it runs, in test mode
and not faulted unless it inspects; or it is turned away. -/
theorem State.command_cases (s : State) (inspects : Bool) (run : State → State) :
    (s.mode = .test ∧ s.pending ≠ none ∧ s.command inspects run = s) ∨
    (s.mode = .test ∧ s.pending = none ∧ (s.err = false ∨ inspects = true) ∧ s.command inspects run = run s) ∨
    ((s.mode = .autonomous ∨ s.pending = none ∧ s.err = true) ∧ s.command inspects run = s.turnAway) := by
  cases hm : s.mode with
  | autonomous =>
    exact .inr (.inr ⟨.inl rfl, s.command_of_not_admits (State.not_busy_of_autonomous hm)
      (State.admits_autonomous hm _) run⟩)
  | test =>
    by_cases hp : s.pending = none
    · have hb := State.not_busy_of_idle hp
      by_cases he : s.err = false
      · exact .inr (.inl ⟨rfl, hp, .inl he, s.command_of_admits hb (State.admits_of_ready hm he _) run⟩)
      · rw [Bool.not_eq_false] at he
        cases inspects
        · exact .inr (.inr ⟨.inr ⟨hp, he⟩, s.command_of_not_admits hb (State.admits_faulted he) run⟩)
        · exact .inr (.inl ⟨rfl, hp, .inr rfl, s.command_of_admits hb (State.admits_inspect hm) run⟩)
    · exact .inl ⟨rfl, hp, s.command_of_busy (State.busy_iff.2 ⟨hm, hp⟩) _ run⟩

end Sys2Proof.Machine
end

