-- ==== Sys2Proof/Laws/Operation.lean ====
section
/-! SUPPORT. What running an operation can do: how far its events get, and what it leaves unchanged. -/

namespace Sys2Proof.Machine

/-- How many delays a list of events requests. -/
def delayCount (events : List Event) : Nat := events.countP Event.isDelay

theorem delayCount_line {e : Event} (h : e.isDelay = false) (rest : List Event) :
    delayCount (e :: rest) = delayCount rest := by simp [delayCount, h]

theorem delayCount_delay {e : Event} (h : e.isDelay = true) (rest : List Event) :
    delayCount (e :: rest) = delayCount rest + 1 := by simp [delayCount, h]

@[simp] theorem emission_none : ∀ events : List Event, emission none events = { sent := events, held := none, hold := none }
  | [] => rfl
  | _ :: _ => rfl

theorem emission_line {e : Event} (h : e.isDelay = false) (k : Nat) (rest : List Event) :
    emission (some k) (e :: rest) =
      { emission (some k) rest with sent := e :: (emission (some k) rest).sent } := by
  simp [emission, h]

theorem emission_delay {e : Event} (h : e.isDelay = true) (k : Nat) (rest : List Event) :
    emission (some (k + 1)) (e :: rest) =
      { emission (some k) rest with sent := e :: (emission (some k) rest).sent } := by
  simp [emission, h]

theorem emission_wait {e : Event} (h : e.isDelay = true) (rest : List Event) :
    emission (some 0) (e :: rest) = { sent := [e], held := some (e, rest), hold := none } := by
  simp [emission, h]

/-- With enough delays completed at once every event is emitted. -/
theorem emission_of_enough : ∀ {k : Nat} {events : List Event}, delayCount events ≤ k →
    emission (some k) events = { sent := events, held := none, hold := some (k - delayCount events) }
  | k, [], _ => by simp [emission, delayCount]
  | k, e :: rest, h => by
    cases he : e.isDelay with
    | false =>
      have hc := delayCount_line he rest
      rw [emission_line he, emission_of_enough (hc ▸ h), hc]
    | true =>
      have hc := delayCount_delay he rest
      rw [hc] at h
      obtain ⟨j, rfl⟩ : ∃ j, k = j + 1 := ⟨k - 1, by omega⟩
      rw [emission_delay he, emission_of_enough (show delayCount rest ≤ j by omega), hc]
      simp

/-- The events before the delay that is kept waiting, and that delay, are emitted, and no more. -/
theorem emission_of_held : ∀ {before : List Event} {delay : Event} {rest : List Event}, delay.isDelay = true →
    emission (some (delayCount before)) (before ++ delay :: rest) =
      { sent := before ++ [delay], held := some (delay, rest), hold := none }
  | [], delay, rest, h => emission_wait h rest
  | e :: before, delay, rest, h => by
    cases he : e.isDelay with
    | false =>
      rw [delayCount_line he, List.cons_append, emission_line he, emission_of_held h]
      rfl
    | true =>
      rw [delayCount_delay he, List.cons_append, emission_delay he, emission_of_held h]
      rfl

/-- Too few delays completed at once: where the events stop. -/
theorem held_of_too_few : ∀ {k : Nat} {events : List Event}, k < delayCount events →
    ∃ before delay rest, events = before ++ delay :: rest ∧ delay.isDelay = true ∧ delayCount before = k
  | k, [], h => by simp [delayCount] at h
  | k, e :: rest, h => by
    cases he : e.isDelay with
    | false =>
      have hc := delayCount_line he rest
      obtain ⟨before, delay, tail, h1, h2, h3⟩ := held_of_too_few (hc ▸ h)
      exact ⟨e :: before, delay, tail, by rw [h1]; rfl, h2, by rw [delayCount_line he, h3]⟩
    | true =>
      cases k with
      | zero => exact ⟨[], e, rest, rfl, he, rfl⟩
      | succ j =>
        have hc := delayCount_delay he rest
        rw [hc] at h
        obtain ⟨before, delay, tail, h1, h2, h3⟩ := held_of_too_few (show j < delayCount rest by omega)
        exact ⟨e :: before, delay, tail, by rw [h1]; rfl, h2, by rw [delayCount_delay he, h3]⟩

/-- Everything the events of an operation can do: they are all emitted, or the operation waits at a delay. -/
theorem emission_cases (hold : Option Nat) (events : List Event) :
    (∃ left, emission hold events = { sent := events, held := none, hold := left } ∧ (hold = none → left = none)) ∨
    (∃ before delay rest, events = before ++ delay :: rest ∧ delay.isDelay = true ∧ hold = some (delayCount before) ∧
      emission hold events = { sent := before ++ [delay], held := some (delay, rest), hold := none }) := by
  cases hold with
  | none => exact .inl ⟨none, emission_none _, fun _ => rfl⟩
  | some k =>
    rcases Nat.lt_or_ge k (delayCount events) with h | h
    · obtain ⟨before, delay, rest, rfl, hd, rfl⟩ := held_of_too_few h
      exact .inr ⟨before, delay, rest, rfl, hd, rfl, emission_of_held hd⟩
    · exact .inl ⟨_, emission_of_enough h, fun hn => by cases hn⟩

/-- Everything running an operation can do: it ends, or it waits with a delay pending. -/
theorem State.runOperation_cases (s : State) (events : List Event) (ending : Ending) :
    (∃ left, s.runOperation events ending = { s.emit events with hold := left }.finish ending ∧
      (s.hold = none → left = none)) ∨
    (∃ before delay rest, events = before ++ delay :: rest ∧ delay.isDelay = true ∧ s.hold = some (delayCount before) ∧
      s.runOperation events ending =
        { s.emit (before ++ [delay]) with
          hold := none, pending := some { delay := delay, rest := rest, ending := ending } }) := by
  rcases emission_cases s.hold events with ⟨left, h, hn⟩ | ⟨before, delay, rest, h1, h2, h3, h⟩
  · exact .inl ⟨left, by unfold State.runOperation; rw [h], hn⟩
  · exact .inr ⟨before, delay, rest, h1, h2, h3, by unfold State.runOperation; rw [h]⟩

/-- Where the environment completes every delay at once, an operation ends. -/
theorem State.runOperation_of_prompt {s : State} (h : s.hold = none) (events : List Event) (ending : Ending) :
    s.runOperation events ending = (s.emit events).finish ending := by
  unfold State.runOperation
  rw [h, emission_none, ← h]
  rfl

/-- What finishing an operation can change. -/
theorem State.finish_frame (s : State) (ending : Ending) :
    ∃ tick response, s.finish ending = { s with tick := tick, response := response } := by
  cases ending <;> exact ⟨_, _, rfl⟩

/-- What running an operation can change. -/
theorem State.runOperation_frame (s : State) (events : List Event) (ending : Ending) :
    ∃ trace clk dat hold pending tick response, s.runOperation events ending =
      { s with trace := trace, clk := clk, dat := dat, hold := hold, pending := pending, tick := tick
               response := response } := by
  rcases s.runOperation_cases events ending with ⟨left, h, _⟩ | ⟨_, _, _, _, _, _, h⟩
  · obtain ⟨tick, response, hf⟩ := State.finish_frame { s.emit events with hold := left } ending
    rw [h, hf]
    exact ⟨_, _, _, left, s.pending, tick, response, rfl⟩
  · rw [h]
    exact ⟨_, _, _, _, _, _, _, rfl⟩

/-- An operation that waits and is then completed whole ends as the one whose delays are all completed at once. -/
theorem State.completeDelay_runOperation {s : State} (hp : s.pending = none) (events : List Event) (ending : Ending)
    (env : List EnvMove) :
    State.completeDelay { s.runOperation events ending with env := env } none =
      { State.runOperation { s with hold := none } events ending with env := env } := by
  rw [State.runOperation_of_prompt (s := { s with hold := none }) rfl]
  rcases s.runOperation_cases events ending with ⟨left, h, -⟩ | ⟨before, delay, rest, rfl, -, -, h⟩
  · rw [h]
    cases ending <;> simp [State.completeDelay, State.finish, State.countTick, State.respond, State.emit, hp, State.wrapW]
  · rw [h]
    unfold State.completeDelay
    simp only []
    rw [State.runOperation_of_prompt rfl, show before ++ delay :: rest = before ++ [delay] ++ rest by simp]
    generalize before ++ [delay] = sent
    cases ending <;>
      simp [State.finish, State.countTick, State.respond, State.emit, hp, State.wrapW, clkAfter_append, datAfter_append]

/-- What the completion of a delay can change. -/
theorem State.completeDelay_frame (s : State) (hold : Option Nat) :
    ∃ trace clk dat left pending tick response, s.completeDelay hold =
      { s with trace := trace, clk := clk, dat := dat, hold := left, pending := pending, tick := tick
               response := response } := by
  unfold State.completeDelay
  split
  · exact ⟨s.trace, s.clk, s.dat, hold, s.pending, s.tick, s.response, rfl⟩
  · next p _ =>
    obtain ⟨_, _, _, _, _, _, _, h⟩ :=
      State.runOperation_frame { s with pending := none, hold := hold } p.rest p.ending
    exact ⟨_, _, _, _, _, _, _, h⟩

end Sys2Proof.Machine
end

