-- ==== Sys2Proof/Laws/Stages.lean ====
section
/-! SUPPORT. What each stage can do, said once: flicker, smear, decay, the frame, the tick operation. -/

namespace Sys2Proof.Machine

/-! ## Flicker (spec/41_effects.md R121) -/

theorem flickerDistance_eq (s : State) :
    (flickerDistance s : Int) = ((s.tick.toNat : Int) - s.lastEvent.toNat) % 2 ^ s.cfg.wTick :=
  s.wrapW_sub s.tick s.lastEvent

theorem flickerColor_eq (s : State) (hue : Nat) : flickerColor s hue = color (BitVec.ofNat 8 hue) 255 := by
  unfold flickerColor
  rw [s.cfg.ranges.flkSat_eq]
  rfl

theorem flickerStage_fires {src : DrawSource} {s : State} (h : src.interval s < flickerDistance s) :
    flickerStage src s =
      { outcome := true
        state := { src.after (src.after (src.after s)) with
          fb := (src.after (src.after (src.after s))).fb.writeElement (src.index (src.after s))
            (flickerColor s (src.hue (src.after (src.after s))))
          lastEvent := s.tick } } := if_pos h

theorem flickerStage_rests {src : DrawSource} {s : State} (h : flickerDistance s ≤ src.interval s) :
    flickerStage src s = { outcome := false, state := src.after s } := if_neg (Nat.not_lt.2 h)

/-- A draw source changes the RAND channel and the number of draws at most. -/
theorem DrawSource.after_eq (src : DrawSource) (s : State) :
    src.after s = { s with rand := (src.after s).rand, drawCount := (src.after s).drawCount } := by
  cases src <;> rfl

/-- Everything the flicker stage can change. -/
theorem flickerStage_frame (src : DrawSource) (s : State) :
    ∃ fb last rand count, (flickerStage src s).state =
      { s with fb := fb, lastEvent := last, rand := rand, drawCount := count } := by
  rcases Nat.lt_or_ge (src.interval s) (flickerDistance s) with h | h
  · rw [flickerStage_fires h]; cases src <;> exact ⟨_, _, _, _, rfl⟩
  · rw [flickerStage_rests h]; cases src <;> exact ⟨_, _, _, _, rfl⟩

/-! ## Smear (R130) -/

theorem smearStage_closed {s : State} (h : gateOpen s = false) :
    smearStage s = { outcome := false, state := s } := if_neg (by rw [h]; exact Bool.false_ne_true)

theorem smearStage_open {s : State} (h : gateOpen s = true) :
    smearStage s = { outcome := true
                     state := { afterLastValues (takeSnapshot s) with
                       fb := (afterLastValues (takeSnapshot s)).fb.writeAll s.size
                         (smearByte s.cfg.toParams (takeSnapshot s).scr (lastValues (takeSnapshot s))) } } := if_pos h

/-- The draws of the last element's neighbours change the RAND channel and the number of draws at most. -/
theorem afterLastValues_frame (s : State) :
    ∃ rand count, afterLastValues s = { s with rand := rand, drawCount := count } := by
  unfold afterLastValues
  split
  · exact ⟨_, _, rfl⟩
  · next r g b _ => cases r <;> cases g <;> cases b <;> exact ⟨_, _, rfl⟩

/-- Everything the smear stage can change. -/
theorem smearStage_frame (s : State) :
    ∃ f scr alloc rand count, (smearStage s).state =
      { s with fb := f, scr := scr, scrAlloc := alloc, rand := rand, drawCount := count } := by
  cases h : gateOpen s
  · rw [smearStage_closed h]; exact ⟨_, _, _, _, _, rfl⟩
  · rw [smearStage_open h]
    obtain ⟨rand, count, e⟩ := afterLastValues_frame (takeSnapshot s)
    rw [e]
    exact ⟨_, _, _, _, _, rfl⟩

/-- The snapshot reads as the Frame Buffer inside the strip. -/
theorem takeSnapshot_read (s : State) {a : Nat} (h : a < 3 * s.cfg.n) :
    (takeSnapshot s).scr.read a = s.fb.read a := by
  rw [takeSnapshot_scr, Memory.read_writeAll]
  exact if_pos h

/-! ## Decay (R140) -/

theorem decayStage_closed {s : State} (h : gateOpen s = false) :
    decayStage s = { outcome := false, state := s } := if_neg (by rw [h]; exact Bool.false_ne_true)

theorem decayStage_open {s : State} (h : gateOpen s = true) :
    decayStage s = { outcome := true
                     state := { s with
                       fb := s.fb.writeAll s.size (fun a => decayByte s.cfg.decayA (s.fb.read a)) } } := if_pos h

theorem decayByte_toNat (amount : Nat) (v : Byte) : (decayByte amount v).toNat = v.toNat - amount := by
  have hv := v.isLt
  unfold decayByte
  split
  · rw [BitVec.toNat_ofNat]
    exact Nat.mod_eq_of_lt (by omega)
  · have : v.toNat - amount = 0 := by omega
    rw [this]; rfl

/-- Everything the decay stage can change. -/
theorem decayStage_frame (s : State) : ∃ f, (decayStage s).state = { s with fb := f } := by
  cases h : gateOpen s
  · rw [decayStage_closed h]; exact ⟨_, rfl⟩
  · rw [decayStage_open h]; exact ⟨_, rfl⟩

/-! ## The frame (spec/42_transmitter.md R161) -/

theorem bytesEvents_succ (p : Params) (fb : Memory) (start count : Nat) :
    bytesEvents p fb start (count + 1) = byteEvents p (fb.read start) ++ bytesEvents p fb (start + 1) count := rfl

/-- The clock is low after a frame, whatever its level before (R163). -/
theorem clkAfter_frameEvents (b : Bool) (p : Params) (fb : Memory) : clkAfter b (frameEvents p fb) = false := by
  rw [frameEvents, clkAfter_append, clkAfter_append, clkAfter_delayMsEvents]
  rfl

/-- After a byte DAT holds its bit 0. -/
theorem datAfter_byteEvents (b : Bool) (p : Params) (v : Byte) : datAfter b (byteEvents p v) = v.getLsbD 0 := by
  simp only [byteEvents, bitEvents, List.flatMap_cons, List.flatMap_nil, datAfter_append, datAfter_delayUsEvents,
    List.append_assoc]
  rfl

theorem datAfter_bytesEvents (p : Params) (fb : Memory) :
    ∀ (count start : Nat) (b : Bool),
      datAfter b (bytesEvents p fb start (count + 1)) = (fb.read (start + count)).getLsbD 0
  | 0, start, b => by
    rw [bytesEvents_succ, datAfter_append, datAfter_byteEvents]
    rfl
  | count + 1, start, b => by
    rw [bytesEvents_succ, datAfter_append, datAfter_bytesEvents p fb count (start + 1)]
    congr 2
    omega

/-! ## The tick operation (spec/43_scheduler.md R181) -/

/-- The clock is low after the events of a tick, whatever its level before. -/
theorem clkAfter_tickEvents (b : Bool) (p : Params) (fb : Memory) : clkAfter b (tickEvents p fb) = false := by
  rw [tickEvents, clkAfter_append, clkAfter_frameEvents]
  exact clkAfter_delayMsEvents false p.tTickMs

/-- Everything the stages of a tick can change. -/
theorem tickStages_frame (s : State) :
    ∃ fb scr alloc last rand count, (tickStages s).state =
      { s with fb := fb, scr := scr, scrAlloc := alloc, lastEvent := last, rand := rand, drawCount := count } := by
  obtain ⟨_, last, _, _, hf⟩ := flickerStage_frame .env s
  obtain ⟨_, scr, alloc, rand, count, hm⟩ := smearStage_frame (flickerStage .env s).state
  obtain ⟨fb, hd⟩ := decayStage_frame (smearStage (flickerStage .env s).state).state
  refine ⟨fb, scr, alloc, last, rand, count, ?_⟩
  simp only [tickStages]
  rw [hd, hm, hf]

/-- Everything a tick can change. -/
theorem sendTick_frame (s : State) (ending : Ending) :
    ∃ t : State, sendTick (tickStages s).state ending =
      { s with fb := t.fb, scr := t.scr, scrAlloc := t.scrAlloc, tick := t.tick, lastEvent := t.lastEvent
               clk := t.clk, dat := t.dat, trace := t.trace, rand := t.rand, drawCount := t.drawCount
               hold := t.hold, pending := t.pending, response := t.response } := by
  refine ⟨sendTick (tickStages s).state ending, ?_⟩
  obtain ⟨_, _, _, _, _, _, hs⟩ := tickStages_frame s
  obtain ⟨_, _, _, _, _, _, _, ho⟩ := State.runOperation_frame (tickStages s).state
    (tickEvents (tickStages s).state.cfg.toParams (tickStages s).state.fb) ending
  simp only [sendTick]
  rw [ho, hs]

end Sys2Proof.Machine
end

