-- ==== Sys2Proof/Laws/Meanings.lean ====
section
/-! SUPPORT. Every meaning is a command at the port, and answers a next state. -/

namespace Sys2Proof.Machine

/-- Whether the port runs the command while the block is faulted (spec/60_exceptions.md R224). -/
def inspectsState : Instr → Bool
  | .rdbuf _ => true
  | .rdreg _ => true
  | .nop => false
  | .hsv _ _ => false
  | .paint _ _ _ => false
  | .flicker => false
  | .flickerx _ _ _ => false
  | .smear => false
  | .decay => false
  | .transmit => false
  | .tick => false
  | .wrbuf _ _ => false
  | .wrreg _ _ => false

/-- Each meaning answers the next state of a command at the port. -/
theorem exec_is_command (i : Instr) : ∃ run : State → State, ∀ s : State,
    exec i s = .next (s.command (inspectsState i) run) := by
  cases i <;> exact ⟨_, fun _ => rfl⟩

/-- A ready block runs the command. -/
theorem exec_of_ready {i : Instr} {s : State} {run : State → State} (hm : s.mode = .test) (he : s.err = false)
    (hp : s.pending = none) (h : exec i s = .next (s.command (inspectsState i) run)) : exec i s = .next (run s) := by
  rw [h, State.command_of_admits (State.not_busy_of_idle hp) (State.admits_of_ready hm he _)]

/-- A block that executes an operation in test mode does not take a command (R40). -/
theorem exec_of_busy (i : Instr) {s : State} (h : s.busy = true) : exec i s = .next s := by
  obtain ⟨run, e⟩ := exec_is_command i
  rw [e, State.command_of_busy h]

/-- A block in autonomous mode turns every command away (R226). -/
theorem exec_of_autonomous (i : Instr) {s : State} (hm : s.mode = .autonomous) : exec i s = .next s.turnAway := by
  obtain ⟨run, h⟩ := exec_is_command i
  rw [h, State.command_of_not_admits (State.not_busy_of_autonomous hm) (State.admits_autonomous hm _)]

/-- A faulted block turns every command away that does not inspect it (R224). -/
theorem exec_of_faulted {i : Instr} {s : State} (he : s.err = true) (hp : s.pending = none)
    (hi : inspectsState i = false) : exec i s = .next s.turnAway := by
  obtain ⟨run, h⟩ := exec_is_command i
  rw [h, hi, State.command_of_not_admits (State.not_busy_of_idle hp) (State.admits_faulted he)]

theorem exec_next (i : Instr) (s : State) : ∃ t, exec i s = .next t := by
  obtain ⟨run, h⟩ := exec_is_command i
  exact ⟨_, h s⟩

end Sys2Proof.Machine
end

