-- ==== Sys2Proof/Laws/PerInstr.lean ====
section
/-! SUPPORT. A family of statements, one per instruction: the words the encoder writes select the instruction's own row of
the opcode map (spec/30_encoding.md R74). -/

namespace Sys2Proof.Laws.EncodeSelectsRow

/-- The number of the instruction's row in the opcode map. -/
def rowOf : Instr → Fin 13
  | .nop => 0
  | .hsv _ _ => 1
  | .paint _ _ _ => 2
  | .flicker => 3
  | .flickerx _ _ _ => 4
  | .smear => 5
  | .decay => 6
  | .transmit => 7
  | .tick => 8
  | .rdbuf _ => 9
  | .wrbuf _ _ => 10
  | .rdreg _ => 11
  | .wrreg _ _ => 12

/-- The word's OPC is the row's, and the word has the row's pattern under its mask. -/
def Statement (i : Instr) : Prop :=
  ∃ row, opcodeTable[(rowOf i).val]? = some row ∧ fieldOpc (encode i).1 = row.opc ∧
    (encode i).1 &&& row.mask = row.pattern

/-- A packed word has a packed pattern under a packed mask when its bytes do. -/
theorem masked {m p : Word} {a b c d a' b' c' d' pa pb pc pd : Byte} (hm : m = packCmd a' b' c' d')
    (hp : p = packCmd pa pb pc pd) (ha : a &&& a' = pa) (hb : b &&& b' = pb) (hc : c &&& c' = pc)
    (hd : d &&& d' = pd) : packCmd a b c d &&& m = p := by
  subst hm hp ha hb hc hd
  exact packCmd_and ..

/-- A register number leaves the reserved bits of CMD[7:0] at 0. -/
theorem reg_masked (reg : BitVec 4) : (reg.setWidth 8 &&& 0xF0 : Byte) = 0 := by
  revert reg; decide

theorem nop : Statement .nop := ⟨_, rfl, rfl, by decide⟩

theorem hsv (hue sat : Byte) : Statement (.hsv hue sat) :=
  ⟨_, rfl, fieldOpc_packCmd .., masked (a' := 0xFF) (b' := 0xFF) (c' := 0) (d' := 0)
    (pa := 0x01) (pb := 0) (pc := 0) (pd := 0)
    (by decide) (by decide) (by decide) (by decide) BitVec.and_zero BitVec.and_zero⟩

theorem paint (idx : Word) (hue sat : Byte) : Statement (.paint idx hue sat) :=
  ⟨_, rfl, fieldOpc_packCmd .., masked (a' := 0xFF) (b' := 0xFF) (c' := 0) (d' := 0)
    (pa := 0x02) (pb := 0) (pc := 0) (pd := 0)
    (by decide) (by decide) (by decide) (by decide) BitVec.and_zero BitVec.and_zero⟩

theorem flicker : Statement .flicker := ⟨_, rfl, rfl, by decide⟩

theorem flickerx (idx : Word) (hue rdraw : Byte) : Statement (.flickerx idx hue rdraw) :=
  ⟨_, rfl, fieldOpc_packCmd .., masked (a' := 0xFF) (b' := 0) (c' := 0xFF) (d' := 0)
    (pa := 0x04) (pb := 0) (pc := 0) (pd := 0)
    (by decide) (by decide) (by decide) BitVec.and_zero (by decide) BitVec.and_zero⟩

theorem smear : Statement .smear := ⟨_, rfl, rfl, by decide⟩

theorem decay : Statement .decay := ⟨_, rfl, rfl, by decide⟩

theorem transmit : Statement .transmit := ⟨_, rfl, rfl, by decide⟩

theorem tick : Statement .tick := ⟨_, rfl, rfl, by decide⟩

theorem rdbuf (addr : Word) : Statement (.rdbuf addr) :=
  ⟨_, rfl, fieldOpc_packCmd .., masked (a' := 0xFF) (b' := 0xFF) (c' := 0xFF) (d' := 0xFF)
    (pa := 0x09) (pb := 0) (pc := 0) (pd := 0)
    (by decide) (by decide) (by decide) (by decide) (by decide) (by decide)⟩

theorem wrbuf (addr : Word) (data : Byte) : Statement (.wrbuf addr data) :=
  ⟨_, rfl, fieldOpc_packCmd .., masked (a' := 0xFF) (b' := 0xFF) (c' := 0xFF) (d' := 0)
    (pa := 0x0A) (pb := 0) (pc := 0) (pd := 0)
    (by decide) (by decide) (by decide) (by decide) (by decide) BitVec.and_zero⟩

theorem rdreg (reg : BitVec 4) : Statement (.rdreg reg) :=
  ⟨_, rfl, fieldOpc_packCmd .., masked (a' := 0xFF) (b' := 0xFF) (c' := 0xFF) (d' := 0xF0)
    (pa := 0x0B) (pb := 0) (pc := 0) (pd := 0)
    (by decide) (by decide) (by decide) (by decide) (by decide) (reg_masked reg)⟩

theorem wrreg (reg : BitVec 4) (value : Word) : Statement (.wrreg reg value) :=
  ⟨_, rfl, fieldOpc_packCmd .., masked (a' := 0xFF) (b' := 0xFF) (c' := 0xFF) (d' := 0xF0)
    (pa := 0x0C) (pb := 0) (pc := 0) (pd := 0)
    (by decide) (by decide) (by decide) (by decide) (by decide) (reg_masked reg)⟩

end Sys2Proof.Laws.EncodeSelectsRow
end

