-- ==== Sys2Proof/Laws/Smear.lean ====
section
/-! SUPPORT. The arithmetic of smear: the weights sum to F_DEN, so no blend leaves the bounds of what it blends, and no
new value is cut when narrowed to a byte (spec/41_effects.md R130, R133). -/

namespace Sys2Proof.Machine

/-- A blend of two values lies between their bounds. -/
theorem blend_two {d f x y low high : Nat} (hd : 1 ≤ d) (hf : f ≤ d) (hx : low ≤ x ∧ x ≤ high)
    (hy : low ≤ y ∧ y ≤ high) : low ≤ ((d - f) * x + f * y) / d ∧ ((d - f) * x + f * y) / d ≤ high := by
  obtain ⟨g, rfl⟩ := Nat.exists_eq_add_of_le hf
  rw [Nat.add_sub_cancel_left]
  constructor
  · rw [Nat.le_div_iff_mul_le hd]
    nlinarith [Nat.mul_le_mul_left g hx.1, Nat.mul_le_mul_left f hy.1]
  · apply Nat.div_le_of_le_mul
    nlinarith [Nat.mul_le_mul_left g hx.2, Nat.mul_le_mul_left f hy.2]

/-- A blend of three values lies between their bounds. -/
theorem blend_three {d f x y z low high : Nat} (hd : 1 ≤ d) (hf : 2 * f ≤ d) (hx : low ≤ x ∧ x ≤ high)
    (hy : low ≤ y ∧ y ≤ high) (hz : low ≤ z ∧ z ≤ high) :
    low ≤ ((d - 2 * f) * x + f * y + f * z) / d ∧ ((d - 2 * f) * x + f * y + f * z) / d ≤ high := by
  obtain ⟨g, rfl⟩ := Nat.exists_eq_add_of_le hf
  rw [Nat.add_sub_cancel_left]
  constructor
  · rw [Nat.le_div_iff_mul_le hd]
    nlinarith [Nat.mul_le_mul_left g hx.1, Nat.mul_le_mul_left f hy.1, Nat.mul_le_mul_left f hz.1]
  · apply Nat.div_le_of_le_mul
    nlinarith [Nat.mul_le_mul_left g hx.2, Nat.mul_le_mul_left f hy.2, Nat.mul_le_mul_left f hz.2]

/-- The value of a byte lies in [0, 255]. -/
theorem byte_bounds (v : Byte) : 0 ≤ v.toNat ∧ v.toNat ≤ 255 :=
  ⟨Nat.zero_le _, Nat.le_of_lt_succ v.isLt⟩

/-- A literal or drawn neighbour is a byte value. -/
theorem neighbourValue_le (src : NeighbourByte) (s : State) : neighbourValue src s ≤ 255 := by
  cases src with
  | byte k => exact (byte_bounds _).2
  | any => exact Nat.le_of_lt_succ (s.drawValue_in_range (by decide : 0 < 256)).2

/-- The neighbour of the last element is a byte value. -/
theorem lastValues_le (s : State) (c : Nat) : (lastValues s).channel c ≤ 255 := by
  unfold lastValues LastValues.channel
  split <;> split <;> first | exact (byte_bounds _).2 | exact neighbourValue_le _ _

section
variable (cfg : Config) (scr : Memory) (last : LastValues) (hlast : ∀ c, last.channel c ≤ 255)

/-- The new value of the first element (R130). -/
theorem smearByte_first {c : Nat} (hc : c < 3) : (smearByte cfg.toParams scr last c).toNat =
    ((cfg.fDen - cfg.fNum) * (scr.read c).toNat + cfg.fNum * (scr.read (3 + c)).toNat) / cfg.fDen := by
  have h0 : c / 3 = 0 := by omega
  have h1 : c % 3 = c := by omega
  have r := cfg.ranges
  have b := blend_two (low := 0) (high := 255) r.den_pos (show cfg.fNum ≤ cfg.fDen by have := r.factor_le; omega)
    (byte_bounds (scr.read c)) (byte_bounds (scr.read (3 + c)))
  simp only [smearByte, h0, h1, if_true, BitVec.toNat_ofNat]
  exact Nat.mod_eq_of_lt (by omega)

/-- The new value of an interior element (R130). -/
theorem smearByte_interior {e c : Nat} (hc : c < 3) (he : 1 ≤ e) (hn : e ≤ cfg.n - 2) :
    (smearByte cfg.toParams scr last (3 * e + c)).toNat =
      ((cfg.fDen - 2 * cfg.fNum) * (scr.read (3 * e + c)).toNat + cfg.fNum * (scr.read (3 * (e - 1) + c)).toNat
        + cfg.fNum * (scr.read (3 * (e + 1) + c)).toNat) / cfg.fDen := by
  have h0 : (3 * e + c) / 3 = e := by omega
  have h1 : (3 * e + c) % 3 = c := by omega
  have r := cfg.ranges
  have hn2 := r.two_le_n
  have he0 : e ≠ 0 := by omega
  have hel : e ≠ cfg.n - 1 := by omega
  have b := blend_three (low := 0) (high := 255) r.den_pos r.factor_le
    (byte_bounds (scr.read (3 * e + c))) (byte_bounds (scr.read (3 * (e - 1) + c)))
    (byte_bounds (scr.read (3 * (e + 1) + c)))
  simp only [smearByte, h0, h1, if_neg he0, if_neg hel, BitVec.toNat_ofNat]
  exact Nat.mod_eq_of_lt (by omega)

include hlast in
/-- The new value of the last element (R130). -/
theorem smearByte_last {c : Nat} (hc : c < 3) : (smearByte cfg.toParams scr last (3 * (cfg.n - 1) + c)).toNat =
    ((cfg.fDen - cfg.fNum) * (scr.read (3 * (cfg.n - 1) + c)).toNat + cfg.fNum * last.channel c) / cfg.fDen := by
  have h0 : (3 * (cfg.n - 1) + c) / 3 = cfg.n - 1 := by omega
  have h1 : (3 * (cfg.n - 1) + c) % 3 = c := by omega
  have r := cfg.ranges
  have hn2 := r.two_le_n
  have he0 : cfg.n - 1 ≠ 0 := by omega
  have b := blend_two (low := 0) (high := 255) r.den_pos (show cfg.fNum ≤ cfg.fDen by have := r.factor_le; omega)
    (byte_bounds (scr.read (3 * (cfg.n - 1) + c))) ⟨Nat.zero_le _, hlast c⟩
  simp only [smearByte, h0, h1, if_neg he0, if_true, BitVec.toNat_ofNat]
  exact Nat.mod_eq_of_lt (by omega)

end

end Sys2Proof.Machine
end

