-- ==== Sys2Proof/Laws/Step.lean ====
section
/-! SUPPORT. What one step can do, by the environment's move, and that the stages do not look at the port. -/

namespace Sys2Proof.Machine

theorem step_of_command {s : State} {cmd arg : Word} {rest : List EnvMove} (h : s.env = .command cmd arg :: rest) :
    step s = takeCommand cmd arg { s with env := rest } := by
  unfold step State.nextMove State.afterMove
  rw [h]
  rfl

theorem step_of_reset {s : State} {testMode : Bool} {rest : List EnvMove} (h : s.env = .reset testMode :: rest) :
    step s = .next ({ s with env := rest }.powerOn testMode) := by
  unfold step State.nextMove State.afterMove
  rw [h]
  rfl

theorem step_of_delayDone {s : State} {hold : Option Nat} {rest : List EnvMove} (h : s.env = .delayDone hold :: rest) :
    step s = .next ({ s with env := rest }.completeDelay hold) := by
  unfold step State.nextMove State.afterMove
  rw [h]
  rfl

theorem step_of_quiet {s : State} (h : s.env = [] ∨ s.env.head? = some .quiet) :
    step s = .next (quietStep s.afterMove) := by
  unfold step State.nextMove
  rcases h with h | h
  · rw [h]
  · cases he : s.env with
    | nil => rfl
    | cons m rest =>
      rw [he] at h
      injection h with h
      subst h
      rfl

theorem takeCommand_of_ok {cmd arg : Word} {i : Instr} (h : decode cmd arg = .ok i) (s : State) :
    takeCommand cmd arg s = exec i s := by
  unfold takeCommand
  rw [h]

theorem takeCommand_of_error {cmd arg : Word} {e : CmdError} (h : decode cmd arg = .error e) (s : State) :
    takeCommand cmd arg s = .next (s.rejectWord e) := by
  unfold takeCommand
  rw [h]

theorem rejectWord_of_busy {s : State} (h : s.busy = true) (e : CmdError) : s.rejectWord e = s := if_pos h

theorem rejectWord_of_test {s : State} (hm : s.mode = .test) (hp : s.pending = none) (e : CmdError) :
    s.rejectWord e = s.raise e := by
  unfold State.rejectWord
  rw [State.not_busy_of_idle hp, hm]
  rfl

theorem rejectWord_of_autonomous {s : State} (hm : s.mode = .autonomous) (e : CmdError) :
    s.rejectWord e = s.turnAway := by
  unfold State.rejectWord
  rw [State.not_busy_of_autonomous hm, hm]
  rfl

theorem quietStep_of_pending {s : State} {p : Pending} (hp : s.pending = some p) : quietStep s = s := by
  unfold quietStep
  rw [hp]

theorem quietStep_of_test {s : State} (hm : s.mode = .test) : quietStep s = s := by
  unfold quietStep
  rw [hm]
  cases s.pending <;> rfl

theorem quietStep_of_autonomous {s : State} (hm : s.mode = .autonomous) (hp : s.pending = none) :
    quietStep s = sendTick (tickStages s).state .loop := by
  unfold quietStep
  rw [hm, hp]

/-- Everything a quiet step can do. -/
theorem quietStep_cases (s : State) :
    quietStep s = s ∨
    (s.mode = .autonomous ∧ s.pending = none ∧ quietStep s = sendTick (tickStages s).state .loop) := by
  cases hp : s.pending with
  | some p => exact .inl (quietStep_of_pending hp)
  | none =>
    cases hm : s.mode with
    | test => exact .inl (quietStep_of_test hm)
    | autonomous => exact .inr ⟨rfl, rfl, quietStep_of_autonomous hm hp⟩

/-! ## The stages do not look at the mode, the error bit, the response or the environment's plan for delays -/

section
variable (m : Mode) (e : Bool) (r : Option Response) (k : Option Nat)

theorem flickerStage_outside (src : DrawSource) (s : State) :
    flickerStage src { s with mode := m, err := e, response := r, hold := k } =
      { outcome := (flickerStage src s).outcome
        state := { (flickerStage src s).state with mode := m, err := e, response := r, hold := k } } := by
  rcases Nat.lt_or_ge (src.interval s) (flickerDistance s) with h | h
  · rw [flickerStage_fires h,
      flickerStage_fires (s := { s with mode := m, err := e, response := r, hold := k }) (by cases src <;> exact h)]
    cases src <;> rfl
  · rw [flickerStage_rests h,
      flickerStage_rests (s := { s with mode := m, err := e, response := r, hold := k }) (by cases src <;> exact h)]
    cases src <;> rfl

theorem lastValues_outside (s : State) :
    lastValues { s with mode := m, err := e, response := r, hold := k } = lastValues s := by
  unfold lastValues
  simp only []
  cases s.cfg.lastSrc with
  | symmetric => rfl
  | literal x y z => cases x <;> cases y <;> cases z <;> rfl

theorem afterLastValues_outside (s : State) :
    afterLastValues { s with mode := m, err := e, response := r, hold := k } =
      { afterLastValues s with mode := m, err := e, response := r, hold := k } := by
  unfold afterLastValues
  simp only []
  cases s.cfg.lastSrc with
  | symmetric => rfl
  | literal x y z => cases x <;> cases y <;> cases z <;> rfl

theorem smearStage_outside (s : State) :
    smearStage { s with mode := m, err := e, response := r, hold := k } =
      { outcome := (smearStage s).outcome
        state := { (smearStage s).state with mode := m, err := e, response := r, hold := k } } := by
  cases hg : gateOpen s
  · rw [smearStage_closed hg, smearStage_closed (s := { s with mode := m, err := e, response := r, hold := k }) hg]
  · rw [smearStage_open hg, smearStage_open (s := { s with mode := m, err := e, response := r, hold := k }) hg,
      show takeSnapshot { s with mode := m, err := e, response := r, hold := k } =
        { takeSnapshot s with mode := m, err := e, response := r, hold := k } from rfl,
      lastValues_outside, afterLastValues_outside]
    rfl

theorem decayStage_outside (s : State) :
    decayStage { s with mode := m, err := e, response := r, hold := k } =
      { outcome := (decayStage s).outcome
        state := { (decayStage s).state with mode := m, err := e, response := r, hold := k } } := by
  cases hg : gateOpen s
  · rw [decayStage_closed hg, decayStage_closed (s := { s with mode := m, err := e, response := r, hold := k }) hg]
  · rw [decayStage_open hg, decayStage_open (s := { s with mode := m, err := e, response := r, hold := k }) hg]
    rfl

theorem tickStages_outside (s : State) :
    tickStages { s with mode := m, err := e, response := r, hold := k } =
      { fired := (tickStages s).fired
        gated := (tickStages s).gated
        state := { (tickStages s).state with mode := m, err := e, response := r, hold := k } } := by
  simp only [tickStages]
  rw [flickerStage_outside, smearStage_outside, decayStage_outside]

end

theorem smearStage_port (m : Mode) (e : Bool) (r : Option Response) (s : State) :
    smearStage { s with mode := m, err := e, response := r } =
      { outcome := (smearStage s).outcome
        state := { (smearStage s).state with mode := m, err := e, response := r } } := by
  obtain ⟨_, _, _, _, _, h⟩ := smearStage_frame s
  have := smearStage_outside m e r s.hold s
  rwa [h] at this ⊢

theorem decayStage_port (m : Mode) (e : Bool) (r : Option Response) (s : State) :
    decayStage { s with mode := m, err := e, response := r } =
      { outcome := (decayStage s).outcome
        state := { (decayStage s).state with mode := m, err := e, response := r } } := by
  obtain ⟨_, h⟩ := decayStage_frame s
  have := decayStage_outside m e r s.hold s
  rwa [h] at this ⊢

theorem tickStages_port (m : Mode) (e : Bool) (r : Option Response) (s : State) :
    tickStages { s with mode := m, err := e, response := r } =
      { fired := (tickStages s).fired
        gated := (tickStages s).gated
        state := { (tickStages s).state with mode := m, err := e, response := r } } := by
  obtain ⟨_, _, _, _, _, _, h⟩ := tickStages_frame s
  have := tickStages_outside m e r s.hold s
  rwa [h] at this ⊢

theorem tickStages_hold (k : Option Nat) (s : State) :
    tickStages { s with hold := k } =
      { fired := (tickStages s).fired
        gated := (tickStages s).gated
        state := { (tickStages s).state with hold := k } } := by
  obtain ⟨_, _, _, _, _, _, h⟩ := tickStages_frame s
  have := tickStages_outside s.mode s.err s.response k s
  rwa [h] at this ⊢

end Sys2Proof.Machine
end

