-- ==== Sys2Proof/Tests/Slice0.lean ====
section
/-! SUPPORT. Tests: expected values are those of spec/95_test_vectors.md, named by their ids there, unless a comment says
otherwise. Then a witness for the hypotheses of each statement. -/

namespace Sys2Proof.Tests

open Sys2Proof.Machine Sys2Proof.Claims

/-! ## Helpers -/

/-- N = 3, W_TICK = 16, otherwise the defaults. -/
def cfg3 : Config := { toParams := { n := 3, wTick := 16 }, legal := by decide }

/-- N = 2, W_TICK = 32, otherwise the defaults. -/
def cfg2 : Config := { toParams := { n := 2, wTick := 32 }, legal := by decide }

/-- N = 3, W_TICK = 17, otherwise the defaults. -/
def cfg17 : Config := { toParams := { n := 3, wTick := 17 }, legal := by decide }

/-- N = 4 with the literal last element of S9: src(c) = c. -/
def cfgLiteral : Config :=
  { toParams := { n := 4, wTick := 32, lastSrc := .literal (.byte 0) (.byte 1) (.byte 2) }, legal := by decide }

/-- The bytes at addresses 0, 1, ... -/
def mem (bytes : List Nat) : Memory :=
  ({ cells := [] } : Memory).writeAll bytes.length (fun a => BitVec.ofNat 8 (bytes.getD a 0))

/-- A block in test mode after reset, with the given buffer and counters. -/
def block (c : Config) (bytes : List Nat) (tick last : Word) : State :=
  { State.resetWith c true with fb := mem bytes, tick := tick, lastEvent := last }

/-- The state after a command, the state before it where it answers no next state. -/
def after (i : Instr) (s : State) : State :=
  match exec i s with
  | .next t => t
  | .fault _ => s
  | .refused _ => s

/-- The state after a step. -/
def afterStep (s : State) : State :=
  match step s with
  | .next t => t
  | .fault _ => s
  | .refused _ => s

/-- FB as a list of numbers. -/
def bytesOf (s : State) : List Nat := (List.range s.size).map (fun a => (s.fb.read a).toNat)

/-- A response without error, as a number. -/
def respOf (s : State) : Option Nat :=
  match s.response with
  | some { value := v, err := false } => some v.toNat
  | some { value := _, err := true } => none
  | none => none

/-- STATUS as a number. -/
def statusNat (s : State) : Nat := (statusWord s).toNat

/-- An offered command. -/
def offered (s : State) (cmd arg : Word) : State := { s with env := [.command cmd arg] }

/-- A faulted block: E1. -/
def faulted : State := { block cfg3 [] 0 0 with err := true, firstErr := 1 }

/-- A block in autonomous mode. -/
def running : State := State.resetWith cfg3 false

/-- N = 2 with both delays of a tick, the environment completing the given number of delays at once and keeping the next. -/
def held (c : Config) (k : Nat) : State := { block c [0x80, 0, 0, 0, 0, 1] 0 0 with hold := some k }

/-- A TRANSMIT whose delay is kept waiting. -/
def stuck : State := after .transmit (held cfg2 0)

/-- A tick of the autonomous loop whose second delay is kept waiting. -/
def stuckLoop : State := afterStep { running with rand := [7], hold := some 1, env := [.quiet] }

/-! ## WellFormed: each check refuses an ill-formed line (R76) -/

theorem test_wf_hsv_hue : (Asm.hsv 256 0).wellFormed = false := by decide
theorem test_wf_hsv_sat : (Asm.hsv 0 256).wellFormed = false := by decide
theorem test_wf_paint : (Asm.paint 4294967296 0 0).wellFormed = false ∧ (Asm.paint 0 256 0).wellFormed = false
    ∧ (Asm.paint 0 0 256).wellFormed = false := by decide
theorem test_wf_flickerx : (Asm.flickerx 4294967296 0 5).wellFormed = false
    ∧ (Asm.flickerx 0 256 5).wellFormed = false ∧ (Asm.flickerx 0 0 256).wellFormed = false := by decide
theorem test_wf_rdbuf : (Asm.rdbuf 4294967296).wellFormed = false := by decide
theorem test_wf_wrbuf : (Asm.wrbuf 4294967296 0).wellFormed = false ∧ (Asm.wrbuf 0 256).wellFormed = false := by decide
theorem test_wf_rdreg : (Asm.rdreg (.number 16)).wellFormed = false := by decide
theorem test_wf_wrreg : (Asm.wrreg (.number 16) 0).wellFormed = false
    ∧ (Asm.wrreg (.name .tick) 4294967296).wellFormed = false := by decide
theorem test_wf_setrgb : (Asm.setrgb 1431655765 0 0 0).wellFormed = false ∧ (Asm.setrgb 0 256 0 0).wellFormed = false
    ∧ (Asm.setrgb 0 0 256 0).wellFormed = false ∧ (Asm.setrgb 0 0 0 256).wellFormed = false := by decide
theorem test_wf_getrgb : (Asm.getrgb 1431655765).wellFormed = false := by decide
theorem test_wf_settick : (Asm.settick 4294967296).wellFormed = false ∧ (Asm.setlast 4294967296).wellFormed = false := by
  decide
theorem test_wf_accepts : (Asm.flickerx 4294967295 255 255).wellFormed = true
    ∧ (Asm.wrreg (.number 15) 4294967295).wellFormed = true ∧ (Asm.getrgb 1431655764).wellFormed = true := by decide

/-! ## Configurations outside the legal ranges are refused (R8, R10) -/

theorem test_config_n_one : Config.make? { n := 1, wTick := 32 } = none := by decide
theorem test_config_factor : Config.make? { wTick := 32, fNum := 3, fDen := 5 } = none := by decide
theorem test_config_literal : Config.make? { n := 4, wTick := 32, lastSrc := .literal (.byte 12) .any .any } = none := by
  decide
theorem test_config_default : (Config.make? { wTick := 32 }).isSome = true := by decide

/-! ## Decoding: words written out from R72 to R74 -/

theorem test_decode_nop : decode 0x00000000 0x12345678 = .ok .nop := by decide
theorem test_decode_hsv : decode 0x0100FF01 0xDEADBEEF = .ok (.hsv 1 255) := by decide
theorem test_decode_paint : decode 0x0200FF80 2 = .ok (.paint 2 128 255) := by decide
theorem test_decode_flicker : decode 0x03000000 0 = .ok .flicker := by decide
theorem test_decode_flickerx : decode 0x040E0080 2 = .ok (.flickerx 2 128 14) := by decide
theorem test_decode_smear : decode 0x05000000 0 = .ok .smear := by decide
theorem test_decode_decay : decode 0x06000000 0 = .ok .decay := by decide
theorem test_decode_transmit : decode 0x07000000 0 = .ok .transmit := by decide
theorem test_decode_tick : decode 0x08000000 0 = .ok .tick := by decide
theorem test_decode_rdbuf : decode 0x09000000 8 = .ok (.rdbuf 8) := by decide
theorem test_decode_wrbuf : decode 0x0A0000C8 4 = .ok (.wrbuf 4 200) := by decide
theorem test_decode_rdreg : decode 0x0B00000F 0 = .ok (.rdreg 15) := by decide
theorem test_decode_wrreg : decode 0x0C000001 0x0000FFFF = .ok (.wrreg 1 0xFFFF) := by decide

/-- E1, E2, E3: an undefined OPC comes first. -/
theorem test_decode_illegal : decode 0x0D000000 0 = .error .illegalOpcode ∧ decode 0xFF000000 0 = .error .illegalOpcode
    ∧ decode 0x0D000001 0 = .error .illegalOpcode := by decide

/-- E4, A2, H22, H29, F15, S12, T8, K10, A7, A16, E5: a reserved bit of each format. -/
theorem test_decode_reserved :
    [0x00000001, 0x00800000, 0x0101FF00, 0x0201FF00, 0x04050100, 0x05000001, 0x07000100, 0x08000010, 0x0A0001FF,
      0x0B000010, 0x0B00001F].map (fun w => decode w 3) = List.replicate 11 (.error .reservedNonzero) := rfl

/-- The table's numbering: CMD in bits 31:0, ARG in bits 63:32. -/
theorem test_decodeTableWord : decodeTableWord 64 0x000000020200FF80 = some (.paint 2 128 255)
    ∧ decodeTableWord 64 0x0D000000 = none := by decide

/-! ## Assembling (R76, R77) -/

theorem test_assemble_text : assembleText 3 ["PAINT 1, 0, 255", "  ; a comment", "", "WRREG TICK, 0x3 ; to the gate",
    "SETRGB 2, 1, 2, 3", "HSV 256, 0x1F"] = none ∧
    assembleText 3 ["PAINT 1, 0, 255", "  ; a comment", "", "WRREG TICK, 0x3 ; to the gate", "SETRGB 2, 1, 2, 3"] =
      some [(0x0200FF00, 1), (0x0C000000, 3), (0x0A000001, 6), (0x0A000002, 7), (0x0A000003, 8)] := by decide

theorem test_assemble_pseudo : assemble 2 .clearfb = some [(0x0A000000, 0), (0x0A000000, 1), (0x0A000000, 2),
      (0x0A000000, 3), (0x0A000000, 4), (0x0A000000, 5)] ∧
    assemble 2 .stages = some [(0x03000000, 0), (0x05000000, 0), (0x06000000, 0)] ∧
    assemble 2 (.run 2) = some [(0x08000000, 0), (0x08000000, 0)] ∧
    assemble 2 (.getrgb 1) = some [(0x09000000, 3), (0x09000000, 4), (0x09000000, 5)] ∧
    assemble 2 (.setlast 7) = some [(0x0C000001, 7)] := by decide

/-! ## Commands, at most two vectors each -/

/-- A1. -/
theorem test_nop : after .nop (block cfg3 [1, 2] 5 4) = { block cfg3 [1, 2] 5 4 with response := okResp 0 } := by decide
/-- H2. -/
theorem test_hsv : respOf (after (.hsv 1 255) (block cfg3 [] 0 0)) = some 0x0000F9FF := by decide
/-- H13 and H21. -/
theorem test_hsv_more : respOf (after (.hsv 171 128) (block cfg3 [] 0 0)) = some 0x007F8000 ∧
    respOf (after (.hsv 77 0) (block cfg3 [] 0 0)) = some 0x00FFFFFF := by decide
/-- H25. -/
theorem test_paint : let t := after (.paint 2 128 255) (block cfg3 [0, 0, 0, 0, 255, 255] 0 0)
    respOf t = some 0x00FF0000 ∧ bytesOf t = [0, 0, 0, 0, 255, 255, 255, 0, 0] := by decide
/-- H27. -/
theorem test_paint_index : let t := after (.paint 3 0 255) (block cfg3 [] 0 0)
    t.response = errResp ∧ statusNat t = 0x141 ∧ bytesOf t = [0, 0, 0, 0, 0, 0, 0, 0, 0] := by decide
/-- F18, with 9 as interval. -/
theorem test_flicker : let t := after .flicker { block cfg3 [] 20 0 with rand := [9, 2, 128] }
    respOf t = some 1 ∧ bytesOf t = [0, 0, 0, 0, 0, 0, 255, 0, 0] ∧ t.lastEvent = 20 ∧ t.tick = 20 ∧ t.rand = [] := by
  decide
/-- F21. -/
theorem test_flicker_rests : let t := after .flicker { block cfg3 [] 10 0 with rand := [10, 2, 128] }
    respOf t = some 0 ∧ t.lastEvent = 0 ∧ t.rand = [2, 128] := by decide
/-- F6, across the wrap. -/
theorem test_flickerx : let t := after (.flickerx 0 0 5) (block cfg3 [] 3 65533)
    respOf t = some 1 ∧ bytesOf t = [0, 255, 255, 0, 0, 0, 0, 0, 0] ∧ t.lastEvent = 3 := by decide
/-- F14 and F16. -/
theorem test_flickerx_errors : statusNat (after (.flickerx 3 0 4) (block cfg3 [] 100 0)) = 0x141 ∧
    statusNat (after (.flickerx 1 0 4) (block cfg3 [] 2 0)) = 0x161 := by decide
/-- S2. -/
theorem test_smear : let t := after .smear (block cfg3 [0, 0, 0, 0, 255, 255] 3 0)
    respOf t = some 1 ∧ bytesOf t = [0, 12, 12, 0, 229, 229, 0, 12, 12] ∧ statusNat t = 0x300 := by decide
/-- S9, the literal reading. -/
theorem test_smear_literal : bytesOf (after .smear (block cfgLiteral [200] 0 0)) =
    [190, 0, 0, 10, 0, 0, 0, 0, 0, 10, 0, 0] := by decide
/-- D1. -/
theorem test_decay : bytesOf (after .decay (block cfg2 [0, 1, 2, 3, 128, 255] 0 0)) = [0, 0, 1, 2, 127, 254] := by decide
/-- D3. -/
theorem test_decay_closed : let t := after .decay (block cfg2 [0, 1, 2, 3, 128, 255] 2 0)
    respOf t = some 0 ∧ bytesOf t = [0, 1, 2, 3, 128, 255] := by decide
/-- T1: the first two bits, the end of the trace, the lines. -/
theorem test_transmit : let t := after .transmit (block cfg2 [0x80, 0, 0, 0, 0, 1] 0 0)
    t.trace.take 6 = [.clk false, .dat true, .clk true, .clk false, .dat false, .clk true] ∧
    t.trace.drop 141 = [.clk false, .dat true, .clk true, .clk false, .delayMs 1] ∧
    linesWord t = 2 ∧ respOf t = some 0 := by decide
set_option maxRecDepth 20000 in
/-- T5: 200 events with the hooks. -/
theorem test_transmit_hooks : let p : Params := { n := 2, wTick := 32, bitDelayUs := 2, byteDelayUs := 5 }
    (frameEvents p { cells := [] }).length = 200 ∧ (frameEvents p { cells := [] }).count (.delayUs 2) = 48 := by decide
/-- K3. -/
theorem test_tick : let t := after .tick { block cfg3 [] 9 0 with rand := [5, 1, 0] }
    respOf t = some 3 ∧ bytesOf t = [0, 11, 11, 0, 228, 228, 0, 11, 11] ∧ t.lastEvent = 9 ∧ t.tick = 10 ∧
    t.trace.drop 216 = [.clk false, .delayMs 1, .clk false, .delayMs 15] := by decide
/-- K4, with an interval in range. -/
theorem test_tick_wrap : let t := after .tick { block cfg3 [] 65535 65535 with rand := [5] }
    respOf t = some 2 ∧ t.tick = 0 := by decide
/-- A3 and A5. -/
theorem test_rdbuf : respOf (after (.rdbuf 4) (block cfg3 [0, 0, 0, 0, 255, 255] 0 0)) = some 0xFF ∧
    statusNat (after (.rdbuf 9) (block cfg3 [] 0 0)) = 0x151 := by decide
/-- A6 and A8. -/
theorem test_wrbuf : bytesOf (after (.wrbuf 4 255) (block cfg3 [] 0 0)) = [0, 0, 0, 0, 255, 0, 0, 0, 0] ∧
    statusNat (after (.wrbuf 0xFFFFFFFF 1) (block cfg3 [] 0 0)) = 0x151 := by decide
/-- A9, A12, A14, and N of cfg3. -/
theorem test_rdreg : respOf (after (.rdreg 2) (block cfg3 [] 0 0)) = some 0x100 ∧
    respOf (after (.rdreg 4) (block cfg3 [] 0 0)) = some 16 ∧ respOf (after (.rdreg 3) (block cfg3 [] 0 0)) = some 3 ∧
    statusNat (after (.rdreg 6) (block cfg3 [] 0 0)) = 0x131 := by decide
/-- A18 and A20. -/
theorem test_wrreg : (after (.wrreg 0 0x00012345) (block cfg3 [] 0 9)).tick = 0x2345 ∧
    statusNat (after (.wrreg 2 0) (block cfg3 [] 0 0)) = 0x131 := by decide

/-! ## Delays kept waiting (R37, R40, R43): no vector of the spec; expected values by hand from the rules -/

/-- TRANSMIT stops at its delay with no response; completing the delay answers 0. -/
theorem test_held_transmit : stuck.trace.drop 144 = [.clk false, .delayMs 1] ∧ stuck.response = none ∧
    stuck.pending = some { delay := .delayMs 1, rest := [], ending := .transmit } ∧
    respOf (afterStep { stuck with env := [.delayDone none] }) = some 0 := by decide
set_option maxRecDepth 20000 in
/-- TICK stops at the gap and then, completed once, at the inter-tick wait; TICK counts only at the end. -/
theorem test_held_tick : let t := after .tick { held cfg2 0 with rand := [9] }
    let u := afterStep { t with env := [.delayDone (some 0)] }
    let v := afterStep { u with env := [.delayDone none] }
    t.trace.drop 144 = [.clk false, .delayMs 1] ∧ u.trace.drop 146 = [.clk false, .delayMs 15] ∧
    u.response = none ∧ u.tick = 0 ∧ v.trace = u.trace ∧ respOf v = some 2 ∧ v.tick = 1 ∧ v.pending = none := by decide
/-- A command offered meanwhile is not taken, in test mode; a reset abandons the operation. -/
theorem test_held_port : afterStep (offered stuck 0x0A000007 0) = stuck ∧ afterStep (offered stuck 0x0D000000 0) = stuck ∧
    (afterStep { stuck with env := [.reset true] }).pending = none := by decide
set_option maxRecDepth 20000 in
/-- The loop waits, answers a command with an error, and counts its tick once the delay completes. -/
theorem test_held_loop : afterStep { stuckLoop with env := [.quiet] } = stuckLoop ∧
    afterStep (offered stuckLoop 0x0B000002 0) = { stuckLoop with response := errResp } ∧ stuckLoop.tick = 0 ∧
    (afterStep { stuckLoop with env := [.delayDone none] }).tick = 1 := by decide

/-! ## Steps -/

/-- E7, E10, E11: a faulted block. -/
theorem test_faulted : after (.paint 1 0 255) faulted = { faulted with response := errResp } ∧
    after (.rdreg 9) faulted = { faulted with response := errResp } ∧
    after .tick faulted = { faulted with response := errResp } ∧ respOf (after (.rdreg 2) faulted) = some 0x111 := by
  decide
/-- E13: reset clears the fault. -/
theorem test_reset_clears : statusNat (afterStep { faulted with env := [.reset true] }) = 0x100 := by decide
/-- E14. -/
theorem test_autonomous_port : afterStep (offered running 0x0B000002 0) = { running with response := errResp } := by decide
set_option maxRecDepth 20000 in
/-- M1, the first tick. -/
theorem test_autonomous_tick : let t := afterStep { running with rand := [7] }
    t.tick = 1 ∧ t.trace.length = 220 ∧ t.response = none ∧ t.scrAlloc = true := by decide
/-- E1 and E5 through a step. -/
theorem test_step_errors : statusNat (afterStep (offered (block cfg3 [] 0 0) 0x0D000000 0)) = 0x111 ∧
    statusNat (afterStep (offered (block cfg3 [] 0 0) 0x0B00001F 0)) = 0x121 := by decide
/-- withFetchWord: the very next step runs the instruction. -/
theorem test_withFetchWord : step (State.reset.withFetchWord 64 0x000000020200FF80) = exec (.paint 2 128 255) State.reset :=
  rfl
/-- Reset, R251. -/
theorem test_reset : State.reset.fb.wf = true ∧ State.reset.mode = .test ∧ statusNat State.reset = 0x100 := by decide
/-- A write keeps the canonical form: writing 0 removes the cell. -/
theorem test_memory_canonical : (((mem [0, 5]).write 1 0).write 3 0) = { cells := [] } ∧
    ((mem [0, 5]).write 0 7).cells = [(0, 7), (1, 5)] := by decide

/-! ## Witnesses: each statement's hypotheses can hold, each clause at the ends of its range -/

theorem ready_block (c : Config) (bytes : List Nat) (tick last : Word) : (block c bytes tick last).ready := ⟨rfl, rfl, rfl⟩

/-- Of `rowDecodes` in the statements about single commands: a word of the row without and with a reserved bit. -/
theorem witness_rowDecodes :
    (∀ r ∈ [(0x00000000, 0x00800000, 0x00FFFFFF, 0), (0x0100FFFF, 0x01010000, 0x00FF0000, 1),
      (0x0200FFFF, 0x0280FFFF, 0x00FF0000, 2), (0x03000000, 0x03000001, 0x00FFFFFF, 3),
      (0x04FF00FF, 0x04000100, 0x0000FF00, 4), (0x05000000, 0x05000001, 0x00FFFFFF, 5),
      (0x06000000, 0x06800000, 0x00FFFFFF, 6), (0x07000000, 0x07000100, 0x00FFFFFF, 7),
      (0x08000000, 0x08000010, 0x00FFFFFF, 8), (0x09000000, 0x09000001, 0x00FFFFFF, 9),
      (0x0A0000FF, 0x0A000100, 0x00FFFF00, 10), (0x0B00000F, 0x0B000010, 0x00FFFFF0, 11),
      (0x0C00000F, 0x0C800000, 0x00FFFFF0, 12)],
      opc (BitVec.ofNat 32 r.1) = r.2.2.2 ∧ BitVec.ofNat 32 r.1 &&& BitVec.ofNat 32 r.2.2.1 = 0 ∧
      opc (BitVec.ofNat 32 r.2.1) = r.2.2.2 ∧ BitVec.ofNat 32 r.2.1 &&& BitVec.ofNat 32 r.2.2.1 ≠ 0) := by decide

theorem witness_NopRespondsZero : (block cfg3 [1] 2 3).ready := ready_block _ _ _ _
theorem witness_RdbufReadsByte : (block cfg3 [1] 0 0).inspectable ∧ faulted.inspectable ∧
    (8 : Word).toNat < 3 * (block cfg3 [1] 0 0).cfg.n ∧ 3 * (block cfg3 [1] 0 0).cfg.n ≤ (9 : Word).toNat :=
  ⟨⟨rfl, rfl⟩, ⟨rfl, rfl⟩, by decide, by decide⟩
theorem witness_WrbufWritesByte : (block cfg3 [1] 0 0).ready ∧ (block cfg3 [1] 0 0).fb.wf = true ∧
    (8 : Word).toNat < 3 * (block cfg3 [1] 0 0).cfg.n ∧ 3 * (block cfg3 [1] 0 0).cfg.n ≤ (9 : Word).toNat :=
  ⟨ready_block _ _ _ _, by decide, by decide, by decide⟩
theorem witness_RdregReadsMap : faulted.inspectable ∧ 6 ≤ (6 : BitVec 4).toNat ∧ 6 ≤ (15 : BitVec 4).toNat :=
  ⟨⟨rfl, rfl⟩, by decide, by decide⟩
theorem witness_WrregWritesMap : (block cfg3 [] 1 2).ready ∧ 2 ≤ (2 : BitVec 4).toNat ∧ 2 ≤ (15 : BitVec 4).toNat :=
  ⟨ready_block _ _ _ _, by decide, by decide⟩
theorem witness_RepeatedAccessIsIdempotent : opcOf (.wrbuf 8 7) ∈ [9, 10, 11, 12] ∧ (block cfg3 [1] 0 0).fb.wf = true ∧
    exec (.wrbuf 8 7) (block cfg3 [1] 0 0) = .next (after (.wrbuf 8 7) (block cfg3 [1] 0 0)) ∧
    inspects (.rdbuf 9) = true ∧ exec (.rdbuf 9) (block cfg3 [1] 0 0) = .next (after (.rdbuf 9) (block cfg3 [1] 0 0)) :=
  ⟨by decide, by decide, rfl, rfl, rfl⟩
theorem witness_HsvRespondsColor : (block cfg3 [] 0 0).ready := ready_block _ _ _ _
theorem witness_PaintWritesElement : (block cfg3 [1] 0 0).ready ∧ (block cfg3 [1] 0 0).fb.wf = true ∧
    (2 : Word).toNat < (block cfg3 [1] 0 0).cfg.n ∧ (block cfg3 [1] 0 0).cfg.n ≤ (3 : Word).toNat :=
  ⟨ready_block _ _ _ _, by decide, by decide, by decide⟩
theorem witness_ColorIsFloorOfExactComplement : (1 : Byte) ≠ 0 ∧ (255 : Byte) ≠ 0 := by decide
theorem witness_ColorComplementQuirk : (1 : Byte) ≠ 0 ∧ (255 : Byte) ≠ 0 := by decide
theorem witness_DrawLiesInRange : 5 < 15 ∧ 5 ≤ 5 ∧ 14 < 15 ∧ { running with rand := [14, 1] }.rand = 14 :: [1] ∧
    255 < 256 := ⟨by decide, by decide, by decide, rfl, by decide⟩

/-- A block with an interval draw of 9. -/
def drawing (tick : Word) : State := { block cfg3 [1] tick 0 with rand := [9, 2, 128] }

theorem witness_FlickerFiresOnDistance : (drawing 10).ready ∧ (drawing 10).fb.wf = true ∧
    ((drawing 10).drawValue cfg3.flkLo cfg3.flkHi : Int) < distance (drawing 10) ∧
    distance (drawing 9) ≤ (drawing 9).drawValue cfg3.flkLo cfg3.flkHi :=
  ⟨⟨rfl, rfl, rfl⟩, by decide, by decide, by decide⟩
theorem witness_FlickerxUsesOperands : (block cfg3 [] 6 0).ready ∧ (block cfg3 [] 6 0).fb.wf = true ∧
    cfg3.n ≤ (3 : Word).toNat ∧ ¬ cfg3.n ≤ (2 : Word).toNat ∧ (4 : Byte).toNat < cfg3.flkLo ∧
    cfg3.flkHi ≤ (15 : Byte).toNat ∧ ¬ ((5 : Byte).toNat < cfg3.flkLo ∨ cfg3.flkHi ≤ (5 : Byte).toNat) ∧
    ((5 : Byte).toNat : Int) < distance (block cfg3 [] 6 0) ∧
    ¬ ((5 : Byte).toNat : Int) < distance (block cfg3 [] 5 0) :=
  ⟨ready_block _ _ _ _, by decide, by decide, by decide, by decide, by decide, by decide, by decide, by decide⟩
theorem witness_FlickerStageTouchesOneElement : (drawing 10).fb.wf = true ∧
    (flickerStage .env (drawing 10)).outcome = true ∧ (flickerStage .env (drawing 9)).outcome = false ∧
    5 / 3 ≠ DrawSource.env.index (DrawSource.env.after (drawing 10)) := by decide
theorem witness_FlickerFiringBounds : (block cfg3 [] 5 0).ready ∧ distance (block cfg3 [] 5 0) ≤ cfg3.flkLo ∧
    (cfg3.flkHi : Int) ≤ distance (block cfg3 [] 15 0) ∧ (cfg3.flkLo : Int) < distance (block cfg3 [] 6 0) ∧
    distance (block cfg3 [] 14 0) < cfg3.flkHi := ⟨ready_block _ _ _ _, by decide, by decide, by decide, by decide⟩
theorem witness_SmearBlendsSnapshot : (block cfg3 [1] 3 0).ready ∧ (block cfg3 [1] 3 0).tick.toNat % 3 = 0 ∧
    (block cfg3 [1] 1 0).tick.toNat % 3 ≠ 0 ∧ 1 ≤ cfg3.n - 2 := ⟨ready_block _ _ _ _, by decide, by decide, by decide⟩
theorem witness_SmearIsFloorOfExactBlend : (block cfg3 [1] 3 0).ready ∧ (block cfg3 [1] 3 0).tick.toNat % 3 = 0 ∧
    1 ≤ (block cfg3 [1] 3 0).cfg.n - 2 ∧ (block cfg3 [1] 3 0).cfg.lastSrc = .symmetric ∧
    (block cfgLiteral [1] 0 0).ready ∧ (block cfgLiteral [1] 0 0).tick.toNat % 3 = 0 :=
  ⟨ready_block _ _ _ _, by decide, by decide, rfl, ready_block _ _ _ _, by decide⟩
theorem witness_SmearKeepsUniformBuffer : let s := block cfg2 [10, 20, 30, 10, 20, 30] 0 0
    s.ready ∧ s.cfg.lastSrc = .symmetric ∧
    ∀ e, e < s.cfg.n → ∀ c, c < 3 → s.fb.read (3 * e + c) = s.fb.read c :=
  ⟨ready_block _ _ _ _, rfl, by decide⟩
theorem witness_SmearKeepsColumnBounds : let s := block cfg2 [10, 20, 30, 40, 20, 30] 0 0
    s.ready ∧ s.cfg.lastSrc = .symmetric ∧ 0 < 3 ∧
    ∀ e, e < s.cfg.n → 10 ≤ old s (3 * e + 0) ∧ old s (3 * e + 0) ≤ 40 :=
  ⟨ready_block _ _ _ _, rfl, by decide, by decide⟩
theorem witness_DecaySubtractsSaturating : (block cfg3 [1] 3 0).ready ∧ (block cfg3 [1] 3 0).tick.toNat % 3 = 0 ∧
    (block cfg3 [1] 2 0).tick.toNat % 3 ≠ 0 := ⟨ready_block _ _ _ _, by decide, by decide⟩
theorem witness_TransmitSendsFrame : (block cfg3 [1] 0 0).ready ∧ (block cfg3 [1] 0 0).prompt := ⟨ready_block _ _ _ _, rfl⟩
theorem witness_ReceiverRecoversFrameBuffer : (block cfg3 [1] 0 0).ready ∧ (block cfg3 [1] 0 0).prompt ∧
    0 < 24 * (block cfg3 [1] 0 0).cfg.n ∧
    71 < 24 * (block cfg3 [1] 0 0).cfg.n := ⟨ready_block _ _ _ _, rfl, by decide, by decide⟩
theorem witness_FrameEventCount : (block cfg3 [1] 0 0).ready ∧ (block cfg3 [1] 0 0).prompt ∧ cfg3.bitDelayUs = 0 ∧ cfg3.byteDelayUs = 0 ∧
    cfg3.tGapMs > 0 := ⟨ready_block _ _ _ _, rfl, by decide, by decide, by decide⟩
theorem witness_DataStableWhileClockHigh : (block cfg3 [1] 0 0).ready ∧
    (Instr.tick = Instr.transmit ∨ Instr.tick = Instr.tick) ∧ (after .tick (block cfg3 [1] 0 0)).pending = none :=
  ⟨ready_block _ _ _ _, .inr rfl, rfl⟩
theorem witness_TickRunsStagesInOrder : (block cfg3 [1] 0 0).ready ∧ (block cfg3 [1] 0 0).prompt :=
  ⟨ready_block _ _ _ _, rfl⟩
theorem witness_DefaultTickTrace : (block cfg3 [1] 0 0).ready ∧ (block cfg3 [1] 0 0).prompt ∧ cfg3.bitDelayUs = 0 ∧ cfg3.byteDelayUs = 0 ∧
    cfg3.tGapMs = 1 ∧ cfg3.tTickMs = 15 := ⟨ready_block _ _ _ _, rfl, by decide, by decide, by decide, by decide⟩
theorem witness_TickWrapsWithoutError : (block cfg3 [] 65535 0).ready ∧ (block cfg3 [] 65535 0).prompt ∧
    (block cfg3 [] 65535 0).tick.toNat < 2 ^ (block cfg3 [] 65535 0).cfg.wTick ∧
    (block cfg3 [] 0 0).tick.toNat < 2 ^ (block cfg3 [] 0 0).cfg.wTick := ⟨ready_block _ _ _ _, rfl, by decide, by decide⟩
theorem witness_GateCadenceAcrossWrap : (block cfg3 [] 65535 0).ready ∧ (block cfg3 [] 65535 0).prompt ∧ cfg3.wTick % 2 = 0 ∧
    (block cfg3 [] 65535 0).tick.toNat = 2 ^ cfg3.wTick - 1 ∧ (block cfg17 [] 131070 0).ready ∧
    (block cfg17 [] 131070 0).prompt ∧ cfg17.wTick % 2 = 1 ∧
    (block cfg17 [] 131070 0).tick.toNat = 2 ^ cfg17.wTick - 2 :=
  ⟨ready_block _ _ _ _, rfl, by decide, by decide, ready_block _ _ _ _, rfl, by decide, by decide⟩
theorem witness_AutonomousStepIsTickOperation : running.mode = .autonomous ∧ running.pending = none ∧
    running.env = [] ∧ { running with env := [.quiet] }.env.head? = some .quiet := ⟨rfl, rfl, rfl, rfl⟩
theorem witness_TestModeWaitsForCommand : faulted.mode = .test ∧ faulted.env = [] ∧
    { faulted with env := [.quiet] }.env.head? = some .quiet := ⟨rfl, rfl, rfl⟩
set_option maxRecDepth 20000 in
theorem witness_HeldDelayStopsOperation :
    let s : State := { held cfg2 0 with tick := 1, rand := [9] }
    let d := after .decay (after .smear (after .flicker s))
    let before := (frame cfg2.toParams s.fb).take 145
    s.ready ∧ isLineWrite (.delayMs 1) = false ∧ s.hold = some (delays before) ∧
    frame s.cfg.toParams s.fb = before ++ .delayMs 1 :: [] ∧
    frame d.cfg.toParams d.fb ++ tickTail d.cfg.toParams = before ++ .delayMs 1 :: tickTail cfg2.toParams :=
  ⟨⟨rfl, rfl, rfl⟩, rfl, by decide, by decide, by decide⟩
theorem witness_PendingDelayBlocksUntilCompleted : stuck.pending ≠ none ∧ stuck.mode = .test ∧ stuck.env = [] ∧
    (offered stuck 0x0D000000 0).env.head? = some (.command 0x0D000000 0) ∧ stuckLoop.pending ≠ none ∧
    stuckLoop.mode = .autonomous ∧ { stuckLoop with env := [.quiet] }.env.head? = some .quiet ∧
    (offered stuckLoop 0x0B000002 0).env.head? = some (.command 0x0B000002 0) :=
  ⟨by decide, rfl, rfl, rfl, by decide, rfl, rfl, rfl⟩
theorem witness_CompletionFinishesOperation :
    (let s : State := { held cfg2 0 with env := [.delayDone none] };
      s.ready ∧ s.env = .delayDone none :: [] ∧ exec .transmit s = .next (after .transmit s) ∧
      exec .transmit { s with hold := none } = .next (after .transmit { s with hold := none })) ∧
    (let s : State := { running with hold := some 0, env := [.quiet, .delayDone none] };
      s.mode = .autonomous ∧ s.pending = none ∧ s.env = .quiet :: .delayDone none :: [] ∧
      step s = .next (afterStep s) ∧ step { s with hold := none } = .next (afterStep { s with hold := none })) ∧
    stuck.pending ≠ none ∧
    step { stuck with env := .delayDone (some 0) :: .delayDone none :: [] } =
      .next (afterStep { stuck with env := .delayDone (some 0) :: .delayDone none :: [] }) ∧
    step { stuck with env := .delayDone none :: [] } = .next (afterStep { stuck with env := .delayDone none :: [] }) :=
  ⟨⟨⟨rfl, rfl, rfl⟩, rfl, rfl, rfl⟩, ⟨rfl, rfl, rfl, rfl, rfl⟩, by decide, rfl, rfl⟩
theorem witness_StepRunsDecodedCommand :
    (offered (block cfg3 [] 0 0) 0x0200FF80 2).env = .command 0x0200FF80 2 :: [] ∧
    decode 0x0200FF80 2 = .ok (.paint 2 128 255) := ⟨rfl, by decide⟩
theorem witness_UndecodableCommandRaises : (offered (block cfg3 [] 0 0) 0x0D000000 0).mode = .test ∧
    (offered (block cfg3 [] 0 0) 0x0D000000 0).pending = none ∧
    (offered (block cfg3 [] 0 0) 0x0D000000 0).env = .command 0x0D000000 0 :: [] ∧ 13 ≤ opc 0x0D000000 ∧
    13 ≤ opc 0xFF000000 ∧ decode 0x00000001 0 = .error .reservedNonzero :=
  ⟨rfl, rfl, rfl, by decide, by decide, by decide⟩
theorem witness_ErrorsArePrecise : (offered (block cfg3 [] 0 0) 0x0A000001 9).ready ∧
    (offered (block cfg3 [] 0 0) 0x0A000001 9).env = .command 0x0A000001 9 :: [] ∧
    step (offered (block cfg3 [] 0 0) 0x0A000001 9) = .next (afterStep (offered (block cfg3 [] 0 0) 0x0A000001 9)) :=
  ⟨⟨rfl, rfl, rfl⟩, rfl, rfl⟩
theorem witness_OwnErrorsPerCommand : (block cfg3 [] 0 0).ready ∧ (after (.paint 3 0 0) (block cfg3 [] 0 0)).err = true :=
  ⟨ready_block _ _ _ _, by decide⟩
theorem witness_FaultedBlockExecutesNothing : faulted.mode = .test ∧ faulted.pending = none ∧ faulted.err = true ∧
    inspects (.wrbuf 0 1) = false := ⟨rfl, rfl, rfl, rfl⟩
theorem witness_FirstErrorIsSticky : (offered faulted 0x0B000009 0).err = true ∧
    ∀ b, (offered faulted 0x0B000009 0).env.head? ≠ some (.reset b) :=
  ⟨rfl, fun b => by cases b <;> decide⟩
theorem witness_AutonomousPortExecutesNothing : (offered running 0x0B000002 0).mode = .autonomous ∧
    (offered running 0x0B000002 0).env = .command 0x0B000002 0 :: [] := ⟨rfl, rfl⟩
theorem witness_ResetGivesResetState : { faulted with env := [.reset false] }.env = .reset false :: [] := rfl
theorem witness_ConfigAndModeAreConstant : ∀ b, faulted.env.head? ≠ some (.reset b) := fun b => by cases b <;> decide
theorem witness_OnlyItsWritersChangeState : mayWriteFb .transmit = false ∧ Instr.wrreg 2 0 ≠ .tick ∧
    (∀ v, Instr.wrreg 2 0 ≠ .wrreg 0 v) ∧ (∀ v, Instr.wrreg 2 0 ≠ .wrreg 1 v) ∧ Instr.decay ≠ .smear ∧
    Instr.decay ≠ .flicker ∧ Instr.decay ≠ .transmit ∧ (∀ e h r, Instr.decay ≠ .flickerx e h r) :=
  ⟨rfl, by decide, fun v => by simp, fun v => by simp, by decide, by decide, by decide, fun e h r => by simp⟩
theorem witness_StepKeepsInvariant : (block cfg3 [1] 65535 0).Inv ∧
    step (block cfg3 [1] 65535 0) = .next (afterStep (block cfg3 [1] 65535 0)) :=
  ⟨by constructor <;> decide, rfl⟩
theorem witness_EncodeOfDecode : decode 0x0C00000F 7 = .ok (.wrreg 15 7) ∧ (Instr.wrreg 15 7).usesArg = true := by decide
theorem witness_DecodeFollowsOpcodeMap : 13 ≤ opc 0x0D000000 ∧ opcodeMap[opc 0x0C00000F]? = some (0x0C000000, 0xFFFFFFF0) ∧
    (0x0C00000F : Word).toNat &&& 0xFFFFFFF0 = 0x0C000000 ∧ (0x0C000010 : Word).toNat &&& 0xFFFFFFF0 ≠ 0x0C000000 := by
  decide
theorem witness_AssemblerWritesWords : 0 < 256 ∧ 255 < 256 ∧ 15 < 16 ∧ 4294967295 < 2 ^ 32 ∧
    (RegName.tick, 0) ∈ registerNames ∧ (RegName.lines, 5) ∈ registerNames ∧ 256 ≤ 256 ∧ 16 ≤ 16 ∧
    2 ^ 32 ≤ 4294967296 := by decide
theorem witness_PseudoInstructionsExpand : 3 * 1431655765 < 2 ^ 32 ∧ 3 * 0 + 2 < 2 ^ 32 ∧ 3 * 1431655764 + 2 < 2 ^ 32 ∧ 255 < 256 ∧
    4294967295 < 2 ^ 32 ∧ 2 ^ 32 ≤ 3 * 1431655765 + 2 ∧ 256 ≤ 256 ∧ 2 ^ 32 ≤ 4294967296 := by decide
theorem witness_SetrgbExpansionSetsElement : (block cfg3 [1] 0 0).ready ∧ (block cfg3 [1] 0 0).fb.wf = true ∧
    2 < (block cfg3 [1] 0 0).cfg.n ∧ 255 < 256 ∧
    bytesOf (afterStep (afterStep (afterStep { block cfg3 [1] 0 0 with
      env := [.command 0x0A0000FF 6, .command 0x0A000001 7, .command 0x0A000000 8] }))) =
      [1, 0, 0, 0, 0, 0, 255, 1, 0] := ⟨ready_block _ _ _ _, by decide, by decide, by decide, by decide⟩
theorem witness_IllegalConfigurationRefused : ({ n := 1, wTick := 32 } : Params).n = 1 ∧ (2 : Nat) < 3 ∧
    sourceOf (.literal .any .any (.byte 11)) 2 = some (.byte 11) ∧ 11 < 3 * 4 := by decide

end Sys2Proof.Tests
end

section
/-! PROOFS. Which records are accepted as a configuration (spec/00_scope.md R8, R10). -/

namespace Sys2Proof

open Claims

/-- Construction accepts a record exactly when the check of R8 passes (R10). -/
@[simp] theorem Config.make?_isSome (p : Params) : (Config.make? p).isSome = p.legal := by
  unfold Config.make?
  split
  case isTrue h => exact h.symm
  case isFalse h => exact (Bool.eq_false_of_not_eq_true h).symm

theorem NeighbourByte.legal_iff (size : Nat) (b : NeighbourByte) :
    b.legal size = true ↔ ∀ k, b = .byte k → k < size := by
  cases b with
  | byte j => simp [NeighbourByte.legal]
  | any => simp [NeighbourByte.legal]

/-- R131: the check of `LAST_SRC` bounds the literal index of each of the three channels. -/
theorem LastSrc.legal_iff (size : Nat) (l : LastSrc) :
    l.legal size = true ↔ ∀ c k, c < 3 → sourceOf l c = some (.byte k) → k < size := by
  cases l with
  | symmetric => simp [LastSrc.legal, sourceOf]
  | literal r g b =>
    simp only [LastSrc.legal, Bool.and_eq_true, NeighbourByte.legal_iff]
    constructor
    · rintro ⟨⟨hr, hg⟩, hb⟩ c k hc hsrc
      match c, hc with
      | 0, _ => exact hr k (Option.some.inj hsrc)
      | 1, _ => exact hg k (Option.some.inj hsrc)
      | 2, _ => exact hb k (Option.some.inj hsrc)
    · intro h
      exact ⟨⟨fun k hk => h 0 k (by decide) (congrArg some hk), fun k hk => h 1 k (by decide) (congrArg some hk)⟩,
        fun k hk => h 2 k (by decide) (congrArg some hk)⟩

/-- The executable check of a record is the table of legal ranges (R8). -/
theorem Params.legal_iff (p : Params) : p.legal = true ↔
    2 ≤ p.n ∧ 3 * p.n ≤ 2 ^ 32 - 1 ∧ 2 ≤ p.wTick ∧ p.wTick ≤ 32 ∧ 2 * p.fNum ≤ p.fDen ∧ 1 ≤ p.fDen ∧
    p.decayA ≤ 255 ∧ p.flkLo < p.flkHi ∧ p.flkHi ≤ 256 ∧ p.flkSat = 255 ∧
    ∀ c k, c < 3 → sourceOf p.lastSrc c = some (.byte k) → k < 3 * p.n := by
  simp only [Params.legal, Bool.and_eq_true, decide_eq_true_eq, and_assoc, Nat.reducePow, Nat.reduceSub]
  rw [and_comm (a := p.lastSrc.legal (3 * p.n) = true), LastSrc.legal_iff]

/-- R10: smear's first-element formula reads element 1, so a one-element strip is refused. -/
theorem Config.make?_eq_none_of_n_eq_one {p : Params} (hn : p.n = 1) : Config.make? p = none := by
  rw [← Option.not_isSome_iff_eq_none, Config.make?_isSome, Params.legal_iff]
  rintro ⟨two_le_n, -⟩
  omega

/-- Settles O53: construction accepts exactly what the check accepts, and the check is the table of ranges. -/
theorem illegalConfigurationRefused : Obligations.IllegalConfigurationRefused := by
  refine ⟨fun p => ?_, fun p => Config.make?_eq_none_of_n_eq_one⟩
  rw [Config.make?_isSome]
  exact p.legal_iff

end Sys2Proof
end

section
/-! PROOFS. The zero-saturation branch of the Color Model (spec/40_color_model.md R103). -/

namespace Sys2Proof.Machine

open Claims

/-- R103: the value the source stores without a range check, 1023, keeps its low eight bits. -/
theorem overflowByte_eq : BitVec.ofNat 8 (1023 % 256) = (255 : Byte) := rfl

/-- R103: at saturation code 0 the general branch, which would give black, is not taken. -/
@[simp] theorem color_zero_sat (hue : Byte) : color hue 0 = { r := 255, g := 255, b := 255 } := by
  unfold color
  rw [if_pos rfl, overflowByte_eq]

/-- Settles O9: the zero-saturation branch does not read the hue, and the overflow of 1023 is arithmetic. -/
theorem colorZeroSaturationIsWhite : Obligations.ColorZeroSaturationIsWhite := by
  intro hue
  have overflow : 1023 % 256 = 255 := by decide
  exact ⟨color_zero_sat hue, overflow⟩

end Sys2Proof.Machine
end

section
/-! PROOFS. What the statements about single commands share: the words of a row of the formats (spec/30_encoding.md R72,
R75), and a command that a ready block runs (spec/60_exceptions.md R221, R229). -/

namespace Sys2Proof

open Machine Claims

/-- R75: decoding follows a row whose mask covers OPC and the reserved bits and whose pattern is OPC alone. -/
theorem rowDecodes_of_row {k : Nat} {row : OpcodeRow} {b c d : Byte} {reserved : Word}
    (hrow : opcodeTable[k]? = some row) (hmask : row.mask = packCmd 0xFF b c d)
    (hpattern : row.pattern = packCmd row.opc 0 0 0) (hreserved : reserved = packCmd 0 b c d) :
    rowDecodes row.opc.toNat reserved row.build := by
  intro cmd arg hopc
  have ho : fieldOpc cmd = row.opc := BitVec.eq_of_toNat_eq hopc
  have hmatch : cmd &&& row.mask = row.pattern ↔ cmd &&& reserved = 0 := by
    rw [hmask, hpattern, hreserved]
    exact reserved_iff ho
  rw [decode_of_row hrow ho]
  exact ⟨fun hzero => if_pos (hmatch.2 hzero), fun hset => if_neg (mt hmatch.1 hset)⟩

end Sys2Proof

namespace Sys2Proof.Machine

open Claims

/-- R221: raising an error gives the state the statements name by its code. -/
theorem State.raise_eq_raised (s : State) (e : CmdError) : s.raise e = raised s (errorCode e) := rfl

theorem State.respond_eq_okResp (s : State) (v : Word) : s.respond v = { s with response := okResp v } := rfl

/-- A ready block runs the command it is given (R229). -/
theorem State.ready.exec_eq {s : State} (hs : s.ready) {i : Instr} {run : State → State}
    (h : exec i s = .next (s.command (inspectsState i) run)) : exec i s = .next (run s) := by
  obtain ⟨hmode, herr, hpending⟩ := hs
  exact exec_of_ready hmode herr hpending h

end Sys2Proof.Machine
end

section
/-! PROOFS. FLICKERX: its row, the order of its operand checks, and the stage on its operands (spec/41_effects.md R121,
R124). -/

namespace Sys2Proof.Machine

open Claims

/-- R72: CMD[15:8] of FLICKERX is reserved. -/
theorem rowDecodes_flickerx : rowDecodes 0x04 0x0000FF00
    (fun cmd arg => .flickerx arg (cmd.extractLsb' 0 8) (cmd.extractLsb' 16 8)) :=
  rowDecodes_of_row (k := 4) (b := 0) (c := 0xFF) (d := 0) rfl (by decide) (by decide) (by decide)

/-- R121: the distance the flicker stage computes in W_TICK bits is the one over the integers. -/
theorem flickerDistance_eq_distance (s : State) : (flickerDistance s : Int) = distance s := flickerDistance_eq s

/-- R124: where the distance exceeds RDRAW the stage writes element IDX and the event time, and takes no draw. -/
theorem flickerStage_operands_fires {s : State} {r : Nat} (h : (r : Int) < distance s) (e : Nat) (hue : Byte) :
    flickerStage (.operands r e hue.toNat) s =
      { outcome := true
        state := { s with fb := s.fb.writeElement e (color hue 255), lastEvent := s.tick } } := by
  rw [← flickerDistance_eq_distance, Nat.cast_lt] at h
  rw [flickerStage_fires (src := .operands r e hue.toNat) h, flickerColor_eq]
  simp only [DrawSource.after, DrawSource.index, DrawSource.hue, BitVec.ofNat_toNat, BitVec.setWidth_eq]

/-- R124: otherwise the stage leaves the state as it is. -/
theorem flickerStage_operands_rests {s : State} {r : Nat} (h : ¬ (r : Int) < distance s) (e hue : Nat) :
    flickerStage (.operands r e hue) s = { outcome := false, state := s } := by
  rw [← flickerDistance_eq_distance, Nat.cast_lt, Nat.not_lt] at h
  exact flickerStage_rests h

section Flickerx

variable {s : State} {idx : Word} (hue : Byte) {rdraw : Byte}

/-- R222: the index check comes first. -/
theorem exec_flickerx_of_index (hs : s.ready) (hidx : s.cfg.n ≤ idx.toNat) (rdraw : Byte) :
    exec (.flickerx idx hue rdraw) s = .next (raised s 4) := by
  have invalid : ¬ s.validIndex idx = true := by rw [State.validIndex_iff]; exact Nat.not_lt.2 hidx
  rw [hs.exec_eq rfl, if_neg invalid, State.raise_eq_raised]
  rfl

/-- R222: the draw check comes second. -/
theorem exec_flickerx_of_draw (hs : s.ready) (hidx : idx.toNat < s.cfg.n)
    (hdraw : rdraw.toNat < s.cfg.flkLo ∨ s.cfg.flkHi ≤ rdraw.toNat) :
    exec (.flickerx idx hue rdraw) s = .next (raised s 6) := by
  have invalid : ¬ s.validDraw rdraw = true := by rw [State.validDraw_iff]; omega
  rw [hs.exec_eq rfl, if_pos ((s.validIndex_iff idx).2 hidx), if_neg invalid, State.raise_eq_raised]
  rfl

/-- R124: with both operands valid the stage runs on them, and its outcome is the response. -/
theorem exec_flickerx_of_valid (hs : s.ready) (hidx : idx.toNat < s.cfg.n) (hlo : s.cfg.flkLo ≤ rdraw.toNat)
    (hhi : rdraw.toNat < s.cfg.flkHi) :
    exec (.flickerx idx hue rdraw) s =
      .next ((flickerStage (.operands rdraw.toNat idx.toNat hue.toNat) s).state.respond
        (outcomeWord (flickerStage (.operands rdraw.toNat idx.toNat hue.toNat) s).outcome)) := by
  rw [hs.exec_eq rfl, if_pos ((s.validIndex_iff idx).2 hidx), if_pos ((s.validDraw_iff rdraw).2 ⟨hlo, hhi⟩)]

end Flickerx

/-- Settles O14: one case per branch of R124, the checks before the stage. -/
theorem flickerxUsesOperands : Obligations.FlickerxUsesOperands := by
  refine ⟨rowDecodes_flickerx, fun s idx hue rdraw hs hwf => ?_⟩
  split
  case isTrue hidx => exact exec_flickerx_of_index hue hs hidx rdraw
  case isFalse hidx =>
    have hidx : idx.toNat < s.cfg.n := Nat.not_le.1 hidx
    split
    case isTrue hdraw => exact exec_flickerx_of_draw hue hs hidx hdraw
    case isFalse hdraw =>
      obtain ⟨hlo, hhi⟩ := not_or.1 hdraw
      rw [exec_flickerx_of_valid hue hs hidx (Nat.not_lt.1 hlo) (Nat.not_le.1 hhi)]
      split
      case isTrue hfires =>
        rw [flickerStage_operands_fires hfires, outcomeWord_true]
        exact ⟨_, rfl, Memory.read_writeElement hwf idx.toNat (color hue 255), rfl, rfl⟩
      case isFalse hrests =>
        rw [flickerStage_operands_rests hrests, outcomeWord_false, State.respond_eq_okResp]

end Sys2Proof.Machine
end

section
/-! PROOFS. DECAY: its row, the decay law, and the closed gate (spec/41_effects.md R140 to R142). -/

namespace Sys2Proof.Machine

open Claims

/-- R72: all of CMD[23:0] of DECAY is reserved. -/
theorem rowDecodes_decay : rowDecodes 0x06 0x00FFFFFF (fun _ _ => .decay) :=
  rowDecodes_of_row (k := 6) (b := 0xFF) (c := 0xFF) (d := 0xFF) rfl (by decide) (by decide) (by decide)

/-- R141: the truncated difference of the bytes is the integer difference, cut off at 0. -/
theorem decayByte_eq_max (amount : Nat) (v : Byte) :
    ((decayByte amount v).toNat : Int) = max 0 ((v.toNat : Int) - amount) := by
  rw [decayByte_toNat]
  omega

/-- R142: DECAY runs its stage, whose outcome is the response. -/
theorem exec_decay_of_ready {s : State} (hs : s.ready) :
    exec .decay s = .next ((decayStage s).state.respond (outcomeWord (decayStage s).outcome)) := by
  rw [hs.exec_eq rfl]

/-- R140, R141: the stage applies the decay law to the bytes of the strip, and to no other address. -/
theorem old_decayStage_open {s : State} (h : gateOpen s = true) (a : Nat) :
    (old (decayStage s).state a : Int) =
      if a < 3 * s.cfg.n then max 0 ((old s a : Int) - s.cfg.decayA) else old s a := by
  rw [decayStage_open h, old, Memory.read_writeAll, State.size]
  split
  case isTrue => exact decayByte_eq_max s.cfg.decayA (s.fb.read a)
  case isFalse => rfl

/-- Settles O21: the two positions of the gate. -/
theorem decaySubtractsSaturating : Obligations.DecaySubtractsSaturating := by
  refine ⟨rowDecodes_decay, fun s hs => ⟨fun htick => ?_, fun htick => ?_⟩⟩
  · have hgate : gateOpen s = true := (gateOpen_iff s).2 htick
    refine ⟨_, exec_decay_of_ready hs, old_decayStage_open hgate, ?_⟩
    rw [decayStage_open hgate, outcomeWord_true]
    rfl
  · have hgate : gateOpen s = false := (gateOpen_eq_false_iff s).2 htick
    rw [exec_decay_of_ready hs, decayStage_closed hgate, outcomeWord_false, State.respond_eq_okResp]

end Sys2Proof.Machine
end

section
/-! PROOFS. TRANSMIT: its row, the model's frame in the words of R161, and the lines after it (spec/42_transmitter.md R161
to R165). -/

namespace Sys2Proof.Machine

open Claims

/-- R72: all of CMD[23:0] of TRANSMIT is reserved. -/
theorem rowDecodes_transmit : rowDecodes 0x07 0x00FFFFFF (fun _ _ => .transmit) :=
  rowDecodes_of_row (k := 7) (b := 0xFF) (c := 0xFF) (d := 0xFF) rfl (by decide) (by decide) (by decide)

/-! ## The events of the frame -/

/-- R162: a hook of duration above 0 is one delay, and one of duration 0 is none. -/
theorem delayUsEvents_eq_ite_pos (n : Nat) : delayUsEvents n = if n > 0 then [.delayUs n] else [] := by
  simp only [delayUsEvents, gt_iff_lt, Nat.pos_iff_ne_zero, ite_not]

/-- R163: a gap of duration above 0 is one delay, and one of duration 0 is none. -/
theorem delayMsEvents_eq_ite_pos (n : Nat) : delayMsEvents n = if n > 0 then [.delayMs n] else [] := by
  simp only [delayMsEvents, gt_iff_lt, Nat.pos_iff_ne_zero, ite_not]

/-- R161: the bits 7 down to 0 of a byte are the bits `7 - k` for ascending `k`. -/
theorem byteEvents_eq_flatMap_range (p : Params) (v : Byte) :
    byteEvents p v = (List.range 8).flatMap (fun k => bitEvents p (v.getLsbD (7 - k))) ++
      delayUsEvents p.byteDelayUs := rfl

/-- R161: the bytes go out in the order of their addresses. -/
theorem bytesEvents_eq_flatMap_range' (p : Params) (fb : Memory) (start count : Nat) :
    bytesEvents p fb start count = (List.range' start count).flatMap (fun a => byteEvents p (fb.read a)) := by
  induction count generalizing start with
  | zero => rfl
  | succ count ih => rw [bytesEvents_succ, ih, List.range'_succ, List.flatMap_cons]

/-- The transmitter's recursion over the addresses gives the frame of the statements. -/
theorem frameEvents_eq_frame (p : Params) (fb : Memory) : frameEvents p fb = frame p fb := by
  simp only [frameEvents, frame, bytesEvents_eq_flatMap_range', ← List.range_eq_range', byteEvents_eq_flatMap_range,
    bitEvents, delayUsEvents_eq_ite_pos, delayMsEvents_eq_ite_pos]

/-! ## The lines and the response -/

/-- After a frame DAT holds the last bit sent, bit 0 of the last byte: what follows that bit writes CLK alone (R163). -/
theorem datAfter_frameEvents (b : Bool) {p : Params} (hn : 1 ≤ p.n) (fb : Memory) :
    datAfter b (frameEvents p fb) = (fb.read (3 * p.n - 1)).getLsbD 0 := by
  obtain ⟨last, hlast⟩ : ∃ last, 3 * p.n = last + 1 := ⟨3 * p.n - 1, by omega⟩
  rw [frameEvents, datAfter_append, datAfter_append, datAfter_delayMsEvents, hlast, datAfter_bytesEvents,
    Nat.zero_add]
  rfl

/-- R165: where every delay is completed at once, TRANSMIT emits the frame and responds 0. -/
theorem exec_transmit_of_prompt {s : State} (hs : s.ready) (hprompt : s.prompt) :
    exec .transmit s = .next ((s.emit (frameEvents s.cfg.toParams s.fb)).respond 0) := by
  rw [hs.exec_eq rfl, State.runOperation_of_prompt hprompt]
  rfl

/-- R161, R163: what emitting a frame does to the trace and the lines. -/
theorem State.emit_frameEvents (s : State) :
    s.emit (frameEvents s.cfg.toParams s.fb) =
      { s with
        trace := s.trace ++ frame s.cfg.toParams s.fb
        clk := false
        dat := (s.fb.read (3 * s.cfg.n - 1)).getLsbD 0 } := by
  have hn : 1 ≤ s.cfg.n := Nat.le_of_lt s.cfg.ranges.two_le_n
  rw [State.emit, clkAfter_frameEvents, datAfter_frameEvents s.dat hn, frameEvents_eq_frame]

/-- Settles O22: the command emits the model's frame, which is the statement's, and responds 0. -/
theorem transmitSendsFrame : Obligations.TransmitSendsFrame := by
  refine ⟨rowDecodes_transmit, fun s hs hprompt => ?_⟩
  rw [exec_transmit_of_prompt hs hprompt, State.emit_frameEvents, State.respond_eq_okResp]

end Sys2Proof.Machine
end

section
/-! PROOFS. The tick operation: the three stages as commands one after the other, the events after the frame, and the
increment of TICK (spec/43_scheduler.md R181, R183, R184). -/

namespace Sys2Proof.Machine

open Claims

/-- R72: all of CMD[23:0] of TICK is reserved. -/
theorem rowDecodes_tick : rowDecodes 0x08 0x00FFFFFF (fun _ _ => .tick) :=
  rowDecodes_of_row (k := 8) (b := 0xFF) (c := 0xFF) (d := 0xFF) rfl (by decide) (by decide) (by decide)

/-! ## Responses between the stages: no stage reads or writes the response, and each leaves the block ready -/

theorem State.respond_respond (s : State) (v w : Word) : (s.respond v).respond w = s.respond w := rfl

theorem smearStage_respond (s : State) (v : Word) :
    smearStage (s.respond v) =
      { outcome := (smearStage s).outcome, state := (smearStage s).state.respond v } := by
  have port := smearStage_port s.mode s.err (okResp v) s
  obtain ⟨_, _, _, _, _, hframe⟩ := smearStage_frame s
  rw [hframe] at port ⊢
  exact port

theorem decayStage_respond (s : State) (v : Word) :
    decayStage (s.respond v) =
      { outcome := (decayStage s).outcome, state := (decayStage s).state.respond v } := by
  have port := decayStage_port s.mode s.err (okResp v) s
  obtain ⟨_, hframe⟩ := decayStage_frame s
  rw [hframe] at port ⊢
  exact port

theorem State.ready.respond {s : State} (hs : s.ready) (v : Word) : (s.respond v).ready := hs

theorem State.ready.flickerStage {s : State} (hs : s.ready) (src : DrawSource) :
    (flickerStage src s).state.ready := by
  obtain ⟨_, _, _, _, hframe⟩ := flickerStage_frame src s
  rw [hframe]
  exact hs

theorem State.ready.smearStage {s : State} (hs : s.ready) : (smearStage s).state.ready := by
  obtain ⟨_, _, _, _, _, hframe⟩ := smearStage_frame s
  rw [hframe]
  exact hs

theorem State.ready.decayStage {s : State} (hs : s.ready) : (decayStage s).state.ready := by
  obtain ⟨_, hframe⟩ := decayStage_frame s
  rw [hframe]
  exact hs

theorem State.prompt.tickStages {s : State} (hprompt : s.prompt) : (tickStages s).state.prompt := by
  obtain ⟨_, _, _, _, _, _, hframe⟩ := tickStages_frame s
  rw [hframe]
  exact hprompt

@[simp] theorem tickStages_cfg (s : State) : (tickStages s).state.cfg = s.cfg := by
  obtain ⟨_, _, _, _, _, _, hframe⟩ := tickStages_frame s
  rw [hframe]

@[simp] theorem tickStages_tick (s : State) : (tickStages s).state.tick = s.tick := by
  obtain ⟨_, _, _, _, _, _, hframe⟩ := tickStages_frame s
  rw [hframe]

/-! ## The stages as commands -/

/-- R123: FLICKER runs its stage on the environment's draws, and the outcome is the response. -/
theorem exec_flicker_of_ready {s : State} (hs : s.ready) :
    exec .flicker s =
      .next ((flickerStage .env s).state.respond (outcomeWord (flickerStage .env s).outcome)) := by
  rw [hs.exec_eq rfl]

/-- R134: SMEAR runs its stage, whose outcome is the response; an earlier response is replaced. -/
theorem exec_smear_of_respond {s : State} (hs : s.ready) (v : Word) :
    exec .smear (s.respond v) = .next ((smearStage s).state.respond (outcomeWord (smearStage s).outcome)) := by
  rw [(hs.respond v).exec_eq rfl, smearStage_respond, State.respond_respond]

/-- R142: the same of DECAY. -/
theorem exec_decay_of_respond {s : State} (hs : s.ready) (v : Word) :
    exec .decay (s.respond v) = .next ((decayStage s).state.respond (outcomeWord (decayStage s).outcome)) := by
  rw [exec_decay_of_ready (hs.respond v), decayStage_respond, State.respond_respond]

/-- R165: TRANSMIT sends the frame of the buffer; an earlier response is replaced. -/
theorem exec_transmit_of_respond {s : State} (hs : s.ready) (hprompt : s.prompt) (v : Word) :
    exec .transmit (s.respond v) = .next ((s.emit (frameEvents s.cfg.toParams s.fb)).respond 0) :=
  exec_transmit_of_prompt (hs.respond v) hprompt

/-! ## The events and the response of a tick -/

/-- R181: a tick sends the frame, then the events the statements name its tail. -/
theorem tickEvents_eq_append_tickTail (p : Params) (fb : Memory) :
    tickEvents p fb = frameEvents p fb ++ tickTail p := by
  rw [tickEvents, tickTail, delayMsEvents_eq_ite_pos]

/-- R181: the tail of a tick takes CLK low and leaves DAT as it is. -/
theorem State.emit_tickTail (s : State) (p : Params) :
    s.emit (tickTail p) = { s with trace := s.trace ++ tickTail p, clk := false } := by
  have hclk : clkAfter s.clk (tickTail p) = false := by
    rw [tickTail, ← delayMsEvents_eq_ite_pos]
    exact clkAfter_delayMsEvents false p.tTickMs
  have hdat : datAfter s.dat (tickTail p) = s.dat := by
    rw [tickTail, ← delayMsEvents_eq_ite_pos]
    exact datAfter_delayMsEvents s.dat p.tTickMs
  rw [State.emit, hclk, hdat]

/-- R32: a stage command responds 1 exactly when its outcome is true. -/
theorem respond_outcomeWord_eq_okResp_one_iff (s : State) (outcome : Bool) :
    (s.respond (outcomeWord outcome)).response = okResp 1 ↔ outcome = true := by
  rw [State.respond_response]
  cases outcome <;> decide

/-- R183: the response of TICK has gated in bit 1 and fired in bit 0. -/
theorem tickWord_eq_sum (gated fired : Bool) :
    tickWord gated fired = (if gated = true then 2 else 0) + (if fired = true then 1 else 0) := by
  cases gated <;> cases fired <;> decide

/-- R181, R183: where every delay is completed at once, TICK runs the stages, emits its events, increments TICK and
responds. -/
theorem exec_tick_of_prompt {s : State} (hs : s.ready) (hprompt : s.prompt) :
    exec .tick s =
      .next (((tickStages s).state.emit
          (tickEvents (tickStages s).state.cfg.toParams (tickStages s).state.fb)).countTick.respond
        (tickWord (tickStages s).gated (tickStages s).fired)) := by
  rw [hs.exec_eq rfl, sendTick, State.runOperation_of_prompt hprompt.tickStages]
  rfl

/-- R181, R184: what is left of a tick once its frame is out: the tail, the increment modulo 2^W_TICK, the response. -/
theorem State.respond_countTick_emit_tickEvents (s : State) (v : Word) :
    (s.emit (tickEvents s.cfg.toParams s.fb)).countTick.respond v =
      { s.emit (frameEvents s.cfg.toParams s.fb) with
        trace := (s.emit (frameEvents s.cfg.toParams s.fb)).trace ++ tickTail s.cfg.toParams
        clk := false
        tick := BitVec.ofNat 32 ((s.tick.toNat + 1) % 2 ^ s.cfg.wTick)
        response := okResp v } := by
  rw [tickEvents_eq_append_tickTail, State.emit_append, State.emit_tickTail, State.countTick, State.wrapW_add_one]
  rfl

/-- Settles O26: the stage commands leave behind exactly the states the stages of TICK pass on, but for the response, which
no stage reads; TRANSMIT and TICK then send the same frame, and TICK its tail, increment and response after it. -/
theorem tickRunsStagesInOrder : Obligations.TickRunsStagesInOrder := by
  refine ⟨rowDecodes_tick, fun s hs hprompt => ?_⟩
  have hflicker : (flickerStage .env s).state.ready := hs.flickerStage .env
  have hsmear := hflicker.smearStage
  refine ⟨_, _, _, _, exec_flicker_of_ready hs, exec_smear_of_respond hflicker _, exec_decay_of_respond hsmear _,
    exec_transmit_of_respond hsmear.decayStage hprompt.tickStages _, ?_⟩
  rw [exec_tick_of_prompt hs hprompt, State.respond_countTick_emit_tickEvents, tickWord_eq_sum, ← tickStages_cfg s,
    ← tickStages_tick s]
  simp only [respond_outcomeWord_eq_okResp_one_iff]
  rfl

/-! ## The wrap -/

/-- R184: the increment of a register that fits W_TICK bits is one more, but 0 after the largest value. -/
theorem State.wrapW_add_one_toNat (s : State) {x : Word} (hx : x.toNat < 2 ^ s.cfg.wTick) :
    (s.wrapW (x + 1)).toNat = if x.toNat = 2 ^ s.cfg.wTick - 1 then 0 else x.toNat + 1 := by
  have hmod : (s.wrapW (x + 1)).toNat = (x.toNat + 1) % 2 ^ s.cfg.wTick := by
    rw [State.wrapW_toNat, BitVec.toNat_add, Nat.mod_mod_of_dvd _ s.cfg.pow_wTick_dvd]
    rfl
  rw [hmod]
  split
  case isTrue hlast =>
    have hwrap : x.toNat + 1 = 2 ^ s.cfg.wTick := by omega
    rw [hwrap, Nat.mod_self]
  case isFalse hlast => exact Nat.mod_eq_of_lt (by omega)

/-- Settles O28: the stages keep TICK, ERR and FIRST_ERR, and the increment after them is the only write to TICK. -/
theorem tickWrapsWithoutError : Obligations.TickWrapsWithoutError := by
  intro s hs hprompt hfits
  refine ⟨_, _, exec_tick_of_prompt hs hprompt, rfl, ?_⟩
  obtain ⟨_, herr, _⟩ := hs
  obtain ⟨_, _, _, _, _, _, hframe⟩ := tickStages_frame s
  rw [hframe]
  exact ⟨herr, rfl, State.wrapW_add_one_toNat _ hfits⟩

end Sys2Proof.Machine
end

section
/-! PROOFS. The access commands NOP, RDBUF and WRBUF: their rows, and the address check in front of a byte of the Frame
Buffer (spec/44_host_access.md R200, R202, R203). -/

namespace Sys2Proof.Machine

open Claims

/-- R72: all of CMD[23:0] of NOP is reserved. -/
theorem rowDecodes_nop : rowDecodes 0x00 0x00FFFFFF (fun _ _ => .nop) :=
  rowDecodes_of_row (k := 0) (b := 0xFF) (c := 0xFF) (d := 0xFF) rfl (by decide) (by decide) (by decide)

/-- R72: all of CMD[23:0] of RDBUF is reserved. -/
theorem rowDecodes_rdbuf : rowDecodes 0x09 0x00FFFFFF (fun _ arg => .rdbuf arg) :=
  rowDecodes_of_row (k := 9) (b := 0xFF) (c := 0xFF) (d := 0xFF) rfl (by decide) (by decide) (by decide)

/-- R72: CMD[23:8] of WRBUF is reserved, and CMD[7:0] is DATA. -/
theorem rowDecodes_wrbuf : rowDecodes 0x0A 0x00FFFF00 (fun cmd arg => .wrbuf arg (cmd.extractLsb' 0 8)) :=
  rowDecodes_of_row (k := 10) (b := 0xFF) (c := 0xFF) (d := 0) rfl (by decide) (by decide) (by decide)

/-- R224: a command that inspects the block runs in test mode, faulted or not. -/
theorem State.inspectable.exec_eq {s : State} (hs : s.inspectable) {i : Instr} {run : State → State}
    (h : exec i s = .next (s.command true run)) : exec i s = .next (run s) := by
  obtain ⟨hmode, hpending⟩ := hs
  rw [h, State.command_of_admits (State.not_busy_of_idle hpending) (State.admits_inspect hmode)]

/-- R54: the addresses the check refuses are those from 3·N on. -/
theorem State.not_validAddr_iff (s : State) (addr : Word) : ¬ s.validAddr addr = true ↔ 3 * s.cfg.n ≤ addr.toNat := by
  rw [State.validAddr_iff, Nat.not_lt]

/-- R206: widening a byte to a response word keeps its number. -/
theorem setWidth_eq_zextByte (v : Byte) : v.setWidth 32 = zextByte v :=
  (BitVec.ofNat_toNat 32 v).symm

/-! ## The two outcomes of an access -/

section Address

variable {s : State} {addr : Word}

/-- R202: RDBUF of a byte of the strip responds it. -/
theorem exec_rdbuf_of_lt (hs : s.inspectable) (haddr : addr.toNat < 3 * s.cfg.n) :
    exec (.rdbuf addr) s = .next (s.respond (zextByte (s.fb.read addr.toNat))) := by
  rw [hs.exec_eq rfl, if_pos ((s.validAddr_iff addr).2 haddr), setWidth_eq_zextByte]

/-- R202: RDBUF past the strip raises ADDR_RANGE. -/
theorem exec_rdbuf_of_le (hs : s.inspectable) (haddr : 3 * s.cfg.n ≤ addr.toNat) :
    exec (.rdbuf addr) s = .next (raised s 5) := by
  rw [hs.exec_eq rfl, if_neg ((s.not_validAddr_iff addr).2 haddr), State.raise_eq_raised]
  rfl

/-- R203: WRBUF of a byte of the strip writes it and responds 0. -/
theorem exec_wrbuf_of_lt (hs : s.ready) (haddr : addr.toNat < 3 * s.cfg.n) (data : Byte) :
    exec (.wrbuf addr data) s = .next ({ s with fb := s.fb.write addr.toNat data }.respond 0) := by
  rw [hs.exec_eq rfl, if_pos ((s.validAddr_iff addr).2 haddr)]

/-- R203: WRBUF past the strip raises ADDR_RANGE. -/
theorem exec_wrbuf_of_le (hs : s.ready) (haddr : 3 * s.cfg.n ≤ addr.toNat) (data : Byte) :
    exec (.wrbuf addr data) s = .next (raised s 5) := by
  rw [hs.exec_eq rfl, if_neg ((s.not_validAddr_iff addr).2 haddr), State.raise_eq_raised]
  rfl

end Address

/-! ## The statements -/

/-- Settles O2: one case per outcome of the address check; the response is the only field a read writes. -/
theorem rdbufReadsByte : Obligations.RdbufReadsByte := by
  refine ⟨rowDecodes_rdbuf, fun s addr hs => ⟨fun haddr => ?_, exec_rdbuf_of_le hs⟩⟩
  rw [exec_rdbuf_of_lt hs haddr, State.respond_eq_okResp]

/-- Settles O3: one case per outcome of the address check; the bytes of the buffer are those of one memory write. -/
theorem wrbufWritesByte : Obligations.WrbufWritesByte := by
  refine ⟨rowDecodes_wrbuf, fun s addr data hs hwf => ⟨fun haddr => ?_, fun haddr => exec_wrbuf_of_le hs haddr data⟩⟩
  exact ⟨_, exec_wrbuf_of_lt hs haddr data, Memory.read_write hwf addr.toNat data, rfl⟩

/-- Settles O1: a ready block runs NOP, which only responds. -/
theorem nopRespondsZero : Obligations.NopRespondsZero := by
  refine ⟨rowDecodes_nop, fun s hs => ?_⟩
  rw [hs.exec_eq rfl, State.respond_eq_okResp]

end Sys2Proof.Machine
end

section
/-! PROOFS. The encoder and the decoder against each other and against the opcode map
(spec/30_encoding.md R71 to R76). -/

namespace Sys2Proof

open Machine Claims
open Laws.EncodeSelectsRow (rowOf)

/-! ## Decoding what the encoder writes -/

/-- The family of Laws/PerInstr.lean in one statement. -/
theorem encode_selects_row (i : Instr) : Laws.EncodeSelectsRow.Statement i := by
  cases i with
  | nop => exact Laws.EncodeSelectsRow.nop
  | hsv hue sat => exact Laws.EncodeSelectsRow.hsv hue sat
  | paint idx hue sat => exact Laws.EncodeSelectsRow.paint idx hue sat
  | flicker => exact Laws.EncodeSelectsRow.flicker
  | flickerx idx hue rdraw => exact Laws.EncodeSelectsRow.flickerx idx hue rdraw
  | smear => exact Laws.EncodeSelectsRow.smear
  | decay => exact Laws.EncodeSelectsRow.decay
  | transmit => exact Laws.EncodeSelectsRow.transmit
  | tick => exact Laws.EncodeSelectsRow.tick
  | rdbuf addr => exact Laws.EncodeSelectsRow.rdbuf addr
  | wrbuf addr data => exact Laws.EncodeSelectsRow.wrbuf addr data
  | rdreg reg => exact Laws.EncodeSelectsRow.rdreg reg
  | wrreg reg value => exact Laws.EncodeSelectsRow.wrreg reg value

/-- A register number survives the byte it is stored in. -/
@[simp] theorem setWidth_setWidth_reg (reg : BitVec 4) : (reg.setWidth 8 : Byte).setWidth 4 = reg := by
  revert reg
  decide

/-- The fields the row reads are the ones the encoder wrote. -/
theorem build_encode {i : Instr} {row : OpcodeRow} (hrow : opcodeTable[(rowOf i).val]? = some row) :
    row.build (encode i).1 (encode i).2 = i := by
  cases i <;> cases hrow <;> simp [encode]

/-- Settles O47: the encoder's words select the row of the instruction, and the row reads its operands back. -/
theorem decodeOfEncode : Obligations.DecodeOfEncode := by
  intro i
  obtain ⟨row, hrow, hopc, hmask⟩ := encode_selects_row i
  rw [decode_of_row hrow hopc, if_pos hmask, build_encode hrow]

/-! ## Encoding what the decoder reads -/

theorem row_of_findRow {o : Byte} {row : OpcodeRow} (h : findRow o opcodeTable = some row) :
    ∃ k : Nat, opcodeTable[k]? = some row ∧ o = row.opc := by
  have found : ∀ l : List OpcodeRow, findRow o l = some row → row ∈ l ∧ o = row.opc := by
    intro l
    induction l with
    | nil => intro h; cases h
    | cons first rest ih =>
      intro h
      unfold findRow at h
      split at h
      case isTrue ho => cases h; exact ⟨List.mem_cons_self, ho.symm⟩
      case isFalse => exact (ih h).imp_left (List.mem_cons_of_mem first)
  obtain ⟨hmem, ho⟩ := found opcodeTable h
  obtain ⟨k, hk⟩ := List.getElem?_of_mem hmem
  exact ⟨k, hk, ho⟩

/-- R75: a pair that decodes matches the row of its OPC, which gives the instruction. -/
theorem row_of_decode {cmd arg : Word} {i : Instr} (h : decode cmd arg = .ok i) :
    ∃ (k : Nat) (row : OpcodeRow), opcodeTable[k]? = some row ∧ fieldOpc cmd = row.opc ∧
      cmd &&& row.mask = row.pattern ∧ i = row.build cmd arg := by
  unfold decode at h
  split at h
  case h_1 => cases h
  case h_2 row hfind =>
    obtain ⟨k, hrow, hopc⟩ := row_of_findRow hfind
    split at h
    case isTrue hmask => cases h; exact ⟨k, row, hrow, hopc, hmask, rfl⟩
    case isFalse => cases h

/-- A row of the map is one of thirteen. -/
theorem lt_of_row {k : Nat} {row : OpcodeRow} (h : opcodeTable[k]? = some row) : k < 13 :=
  (List.getElem?_eq_some_iff.1 h).1

/-- R74: a mask covers OPC, and a pattern is OPC alone. -/
theorem row_mask_pattern {k : Nat} {row : OpcodeRow} (h : opcodeTable[k]? = some row) :
    fieldOpc row.mask = 0xFF ∧ row.pattern = packCmd row.opc 0 0 0 := by
  have rows : ∀ row ∈ opcodeTable, fieldOpc row.mask = 0xFF ∧ row.pattern = packCmd row.opc 0 0 0 := by decide
  exact rows row (List.mem_of_getElem? h)

/-- A byte that is 0 under a mask is what the mask leaves open of it. -/
theorem and_not_of_and_eq_zero {v m : Byte} (h : v &&& m = 0) : v &&& ~~~m = v := by
  have whole : v &&& (m ||| ~~~m) = v := by rw [BitVec.or_not_self, BitVec.and_allOnes]
  rw [BitVec.and_or_distrib_left, h] at whole
  exact (BitVec.zero_or).symm.trans whole

/-- R75: a word that matches its row is packed from the OPC and from what the mask leaves open of each byte. -/
theorem packCmd_open_bytes {cmd : Word} {k : Nat} {row : OpcodeRow} (hrow : opcodeTable[k]? = some row)
    (hopc : fieldOpc cmd = row.opc) (hmask : cmd &&& row.mask = row.pattern) :
    packCmd row.opc (fieldRdraw cmd &&& ~~~fieldRdraw row.mask) (fieldSat cmd &&& ~~~fieldSat row.mask)
      (fieldLow cmd &&& ~~~fieldLow row.mask) = cmd := by
  obtain ⟨-, hpattern⟩ := row_mask_pattern hrow
  rw [hpattern, ← packCmd_fields cmd, ← packCmd_fields row.mask, packCmd_and, packCmd_inj] at hmask
  obtain ⟨-, hb, hc, hd⟩ := hmask
  rw [and_not_of_and_eq_zero hb, and_not_of_and_eq_zero hc, and_not_of_and_eq_zero hd, ← hopc, packCmd_fields]

/-- R72: REG is CMD[7:0] but for its upper half. -/
theorem setWidth_fieldReg (cmd : Word) : (fieldReg cmd).setWidth 8 = fieldLow cmd &&& 0x0F := by
  have low : ∀ v : Byte, (v.setWidth 4).setWidth 8 = v &&& 0x0F := by decide
  rw [← low (fieldLow cmd), ← packCmd_fields cmd, fieldReg_packCmd, fieldLow_packCmd]

/-- R72: the encoder puts the operands of a row's instruction back where the mask leaves the word open, ARG where the
command uses it. -/
theorem encode_build (cmd arg : Word) {k : Nat} {row : OpcodeRow} (hrow : opcodeTable[k]? = some row) :
    (encode (row.build cmd arg)).1 =
      packCmd row.opc (fieldRdraw cmd &&& ~~~fieldRdraw row.mask) (fieldSat cmd &&& ~~~fieldSat row.mask)
        (fieldLow cmd &&& ~~~fieldLow row.mask) ∧
    ((row.build cmd arg).usesArg = true → (encode (row.build cmd arg)).2 = arg) := by
  have whole (v : Byte) : v &&& 255#8 = v := BitVec.and_allOnes
  have hk := lt_of_row hrow
  interval_cases k <;> cases hrow <;>
    simp [encode, Instr.usesArg, whole, setWidth_fieldReg, fieldRdraw, fieldSat, fieldLow]

/-- Settles O48: the row that decodes the pair gives back each byte of CMD, the reserved ones being 0. -/
theorem encodeOfDecode : Obligations.EncodeOfDecode := by
  intro cmd arg i h
  obtain ⟨k, row, hrow, hopc, hmask, rfl⟩ := row_of_decode h
  obtain ⟨hcmd, harg⟩ := encode_build cmd arg hrow
  exact ⟨hcmd.trans (packCmd_open_bytes hrow hopc hmask), harg⟩

/-! ## The opcode map of the statements -/

/-- The statements' map is the decoder's table as numbers. -/
theorem opcodeMap_eq_map : opcodeMap = opcodeTable.map (fun row => (row.pattern.toNat, row.mask.toNat)) := by decide

theorem row_of_opcodeMap {k pattern mask : Nat} (h : opcodeMap[k]? = some (pattern, mask)) :
    ∃ row, opcodeTable[k]? = some row ∧ row.pattern.toNat = pattern ∧ row.mask.toNat = mask := by
  rw [opcodeMap_eq_map, List.getElem?_map, Option.map_eq_some_iff] at h
  obtain ⟨row, hrow, heq⟩ := h
  exact ⟨row, hrow, congrArg Prod.fst heq, congrArg Prod.snd heq⟩

/-- R74: the rows stand in the order of their OPC, and each gives instructions of its own OPC. -/
theorem row_opc {k : Nat} {row : OpcodeRow} (hrow : opcodeTable[k]? = some row) :
    row.opc.toNat = k ∧ ∀ cmd arg, opcOf (row.build cmd arg) = k := by
  have hk := lt_of_row hrow
  interval_cases k <;> cases hrow <;> exact ⟨rfl, fun _ _ => rfl⟩

/-- R75: the test of a row over numbers. -/
theorem mask_toNat_iff (cmd : Word) (row : OpcodeRow) :
    cmd.toNat &&& row.mask.toNat = row.pattern.toNat ↔ cmd &&& row.mask = row.pattern := by
  rw [← BitVec.toNat_and, BitVec.toNat_inj]

/-- Settles O49: OPC finds the row at its place in the map, and the row's test is the one over numbers. -/
theorem decodeFollowsOpcodeMap : Obligations.DecodeFollowsOpcodeMap := by
  refine fun cmd arg => ⟨decode_illegal, fun pattern mask hmap => ?_⟩
  obtain ⟨row, hrow, rfl, rfl⟩ := row_of_opcodeMap hmap
  obtain ⟨hplace, hbuild⟩ := row_opc hrow
  have hopc : fieldOpc cmd = row.opc := BitVec.eq_of_toNat_eq hplace.symm
  rw [decode_of_row hrow hopc]
  refine ⟨fun hne => if_neg (mt (mask_toNat_iff cmd row).2 hne), fun heq => ?_⟩
  exact ⟨_, if_pos ((mask_toNat_iff cmd row).1 heq), hbuild cmd arg⟩

/-- Settles O50: seven fixed pairs, each decoded. -/
theorem vectorWordsDecode : Obligations.VectorWordsDecode :=
  ⟨by decide, by decide, by decide, by decide, by decide, by decide, by decide⟩

end Sys2Proof
end

section
/-! PROOFS. What a command does once the port admits it, and what a step can do, said once (spec/10_state.md R40, R43;
spec/60_exceptions.md R221 to R226). -/

namespace Sys2Proof.Machine

open Claims

/-! ## The meaning of a command behind the port -/

/-- What each command does to a block whose port admits it: the body of its meaning (spec/30_encoding.md R74). -/
def meaning (s : State) : Instr → State
  | .nop => s.respond 0
  | .hsv hue sat => s.respond (colorWord (color hue sat))
  | .paint idx hue sat =>
    if s.validIndex idx then
      { s with fb := s.fb.writeElement idx.toNat (color hue sat) }.respond (colorWord (color hue sat))
    else s.raise .indexRange
  | .flicker => (flickerStage .env s).state.respond (outcomeWord (flickerStage .env s).outcome)
  | .flickerx idx hue rdraw =>
    if s.validIndex idx then
      if s.validDraw rdraw then
        (flickerStage (.operands rdraw.toNat idx.toNat hue.toNat) s).state.respond
          (outcomeWord (flickerStage (.operands rdraw.toNat idx.toNat hue.toNat) s).outcome)
      else s.raise .drawRange
    else s.raise .indexRange
  | .smear => (smearStage s).state.respond (outcomeWord (smearStage s).outcome)
  | .decay => (decayStage s).state.respond (outcomeWord (decayStage s).outcome)
  | .transmit => s.runOperation (frameEvents s.cfg.toParams s.fb) .transmit
  | .tick => sendTick (tickStages s).state (.tick (tickStages s).gated (tickStages s).fired)
  | .rdbuf addr =>
    if s.validAddr addr then s.respond ((s.fb.read addr.toNat).setWidth 32) else s.raise .addrRange
  | .wrbuf addr data =>
    if s.validAddr addr then { s with fb := s.fb.write addr.toNat data }.respond 0 else s.raise .addrRange
  | .rdreg reg => (s.readReg reg).elim (s.raise .badReg) s.respond
  | .wrreg reg value => (s.writeReg reg value).elim (s.raise .badReg) (·.respond 0)

/-- `exec` is the port in front of the meaning. -/
theorem exec_eq_command (i : Instr) (s : State) :
    exec i s = .next (s.command (inspectsState i) (fun s => meaning s i)) := by
  cases i with
  | rdreg reg =>
    refine congrArg (fun run => Host.Outcome.next (s.command true run)) (funext fun s => ?_)
    show _ = (s.readReg reg).elim _ _
    cases s.readReg reg <;> rfl
  | wrreg reg value =>
    refine congrArg (fun run => Host.Outcome.next (s.command false run)) (funext fun s => ?_)
    show _ = (s.writeReg reg value).elim _ _
    cases s.writeReg reg value <;> rfl
  | _ => rfl

/-- A ready block runs the meaning. -/
theorem State.ready.exec_eq_meaning {s : State} (hs : s.ready) (i : Instr) : exec i s = .next (meaning s i) :=
  hs.exec_eq (run := fun s => meaning s i) (exec_eq_command i s)

/-- Everything `exec` can do: the command is not taken, turned away, or run. -/
theorem exec_cases (i : Instr) (s : State) :
    exec i s = .next s ∨ exec i s = .next s.turnAway ∨
    (s.mode = .test ∧ s.pending = none ∧ (s.err = false ∨ inspectsState i = true) ∧
      exec i s = .next (meaning s i)) := by
  rw [exec_eq_command]
  rcases s.command_cases (inspectsState i) (fun s => meaning s i) with ⟨-, -, h⟩ | ⟨hm, hp, he, h⟩ | ⟨-, h⟩
  · exact .inl (congrArg _ h)
  · exact .inr (.inr ⟨hm, hp, he, congrArg _ h⟩)
  · exact .inr (.inl (congrArg _ h))

/-! ## What a meaning can do to the port -/

/-- The second state has the port, the lines, the trace and the environment of the first: the stages and the writes of a
command change the buffers, the counters and the draws at most. -/
def SamePort (s u : State) : Prop :=
  u = { s with
    fb := u.fb, scr := u.scr, scrAlloc := u.scrAlloc, tick := u.tick, lastEvent := u.lastEvent
    rand := u.rand, drawCount := u.drawCount }

theorem SamePort.cfg {s u : State} (h : SamePort s u) : u.cfg = s.cfg := by rw [show u = _ from h]
theorem SamePort.err {s u : State} (h : SamePort s u) : u.err = s.err := by rw [show u = _ from h]
theorem SamePort.firstErr {s u : State} (h : SamePort s u) : u.firstErr = s.firstErr := by rw [show u = _ from h]
theorem SamePort.mode {s u : State} (h : SamePort s u) : u.mode = s.mode := by rw [show u = _ from h]
theorem SamePort.clk {s u : State} (h : SamePort s u) : u.clk = s.clk := by rw [show u = _ from h]
theorem SamePort.dat {s u : State} (h : SamePort s u) : u.dat = s.dat := by rw [show u = _ from h]
theorem SamePort.trace {s u : State} (h : SamePort s u) : u.trace = s.trace := by rw [show u = _ from h]
theorem SamePort.response {s u : State} (h : SamePort s u) : u.response = s.response := by rw [show u = _ from h]
theorem SamePort.pending {s u : State} (h : SamePort s u) : u.pending = s.pending := by rw [show u = _ from h]
theorem SamePort.hold {s u : State} (h : SamePort s u) : u.hold = s.hold := by rw [show u = _ from h]
theorem SamePort.env {s u : State} (h : SamePort s u) : u.env = s.env := by rw [show u = _ from h]

theorem SamePort.flickerStage (src : DrawSource) (s : State) : SamePort s (flickerStage src s).state := by
  obtain ⟨_, _, _, _, h⟩ := flickerStage_frame src s
  rw [h]
  rfl

theorem SamePort.smearStage (s : State) : SamePort s (smearStage s).state := by
  obtain ⟨_, _, _, _, _, h⟩ := smearStage_frame s
  rw [h]
  rfl

theorem SamePort.decayStage (s : State) : SamePort s (decayStage s).state := by
  obtain ⟨_, h⟩ := decayStage_frame s
  rw [h]
  rfl

theorem SamePort.tickStages (s : State) : SamePort s (tickStages s).state := by
  obtain ⟨_, _, _, _, _, _, h⟩ := tickStages_frame s
  rw [h]
  rfl

/-- A register write gives TICK or LAST_EVENT a wrapped value (R205). -/
theorem State.writeReg_cases {s t : State} {reg : BitVec 4} {value : Word} (h : s.writeReg reg value = some t) :
    (reg = 0 ∧ t = { s with tick := s.wrapW value }) ∨ (reg = 1 ∧ t = { s with lastEvent := s.wrapW value }) := by
  unfold State.writeReg at h
  split at h
  · next h0 => exact .inl ⟨BitVec.eq_of_toNat_eq h0, (Option.some.inj h).symm⟩
  · next h1 => exact .inr ⟨BitVec.eq_of_toNat_eq h1, (Option.some.inj h).symm⟩
  · cases h

/-- Everything a meaning can do: it raises one of its own errors (R223), it responds after changes that leave the port
alone, or it starts an operation after such changes. -/
theorem meaning_cases (s : State) (i : Instr) :
    (∃ e, (errorCode e).toNat ∈ ownErrors i ∧ meaning s i = s.raise e) ∨
    ∃ u, SamePort s u ∧ ((∃ v, meaning s i = u.respond v) ∨
      ∃ events ending, ending ≠ .loop ∧ meaning s i = u.runOperation events ending) := by
  cases i with
  | nop => exact .inr ⟨s, rfl, .inl ⟨_, rfl⟩⟩
  | hsv hue sat => exact .inr ⟨s, rfl, .inl ⟨_, rfl⟩⟩
  | paint idx hue sat =>
    simp only [meaning]
    split
    · exact .inr ⟨{ s with fb := s.fb.writeElement idx.toNat (color hue sat) }, rfl, .inl ⟨_, rfl⟩⟩
    · exact .inl ⟨.indexRange, by simp [ownErrors, errorCode], rfl⟩
  | flicker => exact .inr ⟨_, SamePort.flickerStage _ s, .inl ⟨_, rfl⟩⟩
  | flickerx idx hue rdraw =>
    simp only [meaning]
    split
    · split
      · exact .inr ⟨_, SamePort.flickerStage _ s, .inl ⟨_, rfl⟩⟩
      · exact .inl ⟨.drawRange, by simp [ownErrors, errorCode], rfl⟩
    · exact .inl ⟨.indexRange, by simp [ownErrors, errorCode], rfl⟩
  | smear => exact .inr ⟨_, SamePort.smearStage s, .inl ⟨_, rfl⟩⟩
  | decay => exact .inr ⟨_, SamePort.decayStage s, .inl ⟨_, rfl⟩⟩
  | transmit => exact .inr ⟨s, rfl, .inr ⟨_, .transmit, by decide, rfl⟩⟩
  | tick => exact .inr ⟨_, SamePort.tickStages s, .inr ⟨_, .tick _ _, by simp, rfl⟩⟩
  | rdbuf addr =>
    simp only [meaning]
    split
    · exact .inr ⟨s, rfl, .inl ⟨_, rfl⟩⟩
    · exact .inl ⟨.addrRange, by simp [ownErrors, errorCode], rfl⟩
  | wrbuf addr data =>
    simp only [meaning]
    split
    · exact .inr ⟨{ s with fb := s.fb.write addr.toNat data }, rfl, .inl ⟨_, rfl⟩⟩
    · exact .inl ⟨.addrRange, by simp [ownErrors, errorCode], rfl⟩
  | rdreg reg =>
    simp only [meaning]
    cases s.readReg reg with
    | none => exact .inl ⟨.badReg, by simp [ownErrors, errorCode], rfl⟩
    | some v => exact .inr ⟨s, rfl, .inl ⟨v, rfl⟩⟩
  | wrreg reg value =>
    simp only [meaning]
    cases h : s.writeReg reg value with
    | none => exact .inl ⟨.badReg, by simp [ownErrors, errorCode], rfl⟩
    | some t =>
      refine .inr ⟨t, ?_, .inl ⟨0, rfl⟩⟩
      rcases State.writeReg_cases h with ⟨-, rfl⟩ | ⟨-, rfl⟩ <;> rfl

/-- An operation of a command ends with a response or waits with a delay pending, and leaves the configuration, the mode
and STATUS. -/
theorem runOperation_port (s : State) (events : List Event) {ending : Ending} (h : ending ≠ .loop) :
    (∃ v, (s.runOperation events ending).response = okResp v) ∨ (s.runOperation events ending).pending ≠ none := by
  rcases s.runOperation_cases events ending with ⟨left, e, -⟩ | ⟨_, _, _, _, _, _, e⟩
  · left
    rw [e]
    cases ending with
    | transmit => exact ⟨_, rfl⟩
    | tick gated fired => exact ⟨_, rfl⟩
    | loop => exact absurd rfl h
  · right
    rw [e]
    exact Option.some_ne_none _

@[simp] theorem runOperation_err (s : State) (events : List Event) (ending : Ending) :
    (s.runOperation events ending).err = s.err := by
  obtain ⟨_, _, _, _, _, _, _, h⟩ := s.runOperation_frame events ending
  rw [h]

@[simp] theorem runOperation_firstErr (s : State) (events : List Event) (ending : Ending) :
    (s.runOperation events ending).firstErr = s.firstErr := by
  obtain ⟨_, _, _, _, _, _, _, h⟩ := s.runOperation_frame events ending
  rw [h]

@[simp] theorem runOperation_cfg (s : State) (events : List Event) (ending : Ending) :
    (s.runOperation events ending).cfg = s.cfg := by
  obtain ⟨_, _, _, _, _, _, _, h⟩ := s.runOperation_frame events ending
  rw [h]

@[simp] theorem runOperation_mode (s : State) (events : List Event) (ending : Ending) :
    (s.runOperation events ending).mode = s.mode := by
  obtain ⟨_, _, _, _, _, _, _, h⟩ := s.runOperation_frame events ending
  rw [h]

/-! ## What a step can do -/

/-- The environment's moves, and what is left of the schedule (R43). -/
theorem State.env_cases (s : State) : (s.env = [] ∨ s.env.head? = some .quiet) ∨
    (∃ cmd arg rest, s.env = .command cmd arg :: rest) ∨ (∃ testMode rest, s.env = .reset testMode :: rest) ∨
    ∃ hold rest, s.env = .delayDone hold :: rest := by
  cases h : s.env with
  | nil => exact .inl (.inl rfl)
  | cons move rest =>
    cases move with
    | quiet => exact .inl (.inr rfl)
    | command cmd arg => exact .inr (.inl ⟨cmd, arg, rest, rfl⟩)
    | reset testMode => exact .inr (.inr (.inl ⟨testMode, rest, rfl⟩))
    | delayDone hold => exact .inr (.inr (.inr ⟨hold, rest, rfl⟩))

/-- Every state a step from `s` can answer, by what the block does with the environment's move. -/
inductive Stepped (s : State) : State → Prop where
  /-- It waits, or does not take the command (R37, R40). -/
  | waits : Stepped s s.afterMove
  /-- It runs a tick of the autonomous loop (R186). -/
  | ticks (hm : s.mode = .autonomous) (hp : s.pending = none) :
      Stepped s (sendTick (tickStages s.afterMove).state .loop)
  /-- It answers without executing (R224, R226). -/
  | turnsAway : Stepped s s.afterMove.turnAway
  /-- It raises the error of a word that does not decode (R75). -/
  | rejects (e : CmdError) (hm : s.mode = .test) (hp : s.pending = none) : Stepped s (s.afterMove.raise e)
  /-- It runs a command. -/
  | runs (i : Instr) (hm : s.mode = .test) (hp : s.pending = none) (he : s.err = false ∨ inspectsState i = true) :
      Stepped s (meaning s.afterMove i)
  /-- It is reset (R250). -/
  | resets (testMode : Bool) (hmove : s.env.head? = some (.reset testMode)) : Stepped s (s.afterMove.powerOn testMode)
  /-- A delay is completed (R37). -/
  | completes (hold : Option Nat) : Stepped s (s.afterMove.completeDelay hold)

theorem Stepped.of_quiet (s : State) : Stepped s (quietStep s.afterMove) := by
  rcases quietStep_cases s.afterMove with h | ⟨hm, hp, h⟩
  · rw [h]; exact .waits
  · rw [h]; exact .ticks hm hp

theorem Stepped.of_rejectWord (s : State) (e : CmdError) : Stepped s (s.afterMove.rejectWord e) := by
  cases hm : s.mode with
  | autonomous => rw [rejectWord_of_autonomous (s := s.afterMove) hm]; exact .turnsAway
  | test =>
    by_cases hp : s.pending = none
    · rw [rejectWord_of_test (s := s.afterMove) hm hp]; exact .rejects e hm hp
    · rw [rejectWord_of_busy (s := s.afterMove) (State.busy_iff.2 ⟨hm, hp⟩)]; exact .waits

theorem Stepped.of_exec (s : State) (i : Instr) : ∃ t, exec i s.afterMove = .next t ∧ Stepped s t := by
  rcases exec_cases i s.afterMove with h | h | ⟨hm, hp, he, h⟩
  · exact ⟨_, h, .waits⟩
  · exact ⟨_, h, .turnsAway⟩
  · exact ⟨_, h, .runs i hm hp he⟩

/-- Every step answers a next state, and one of those named above. -/
theorem step_stepped (s : State) : ∃ t, step s = .next t ∧ Stepped s t := by
  unfold step State.nextMove
  cases he : s.env with
  | nil => exact ⟨_, rfl, .of_quiet s⟩
  | cons move rest =>
    cases move with
    | quiet => exact ⟨_, rfl, .of_quiet s⟩
    | command cmd arg =>
      show ∃ t, takeCommand cmd arg s.afterMove = .next t ∧ Stepped s t
      cases hd : decode cmd arg with
      | ok i => rw [takeCommand_of_ok hd]; exact Stepped.of_exec s i
      | error e => rw [takeCommand_of_error hd]; exact ⟨_, rfl, .of_rejectWord s e⟩
    | reset testMode => exact ⟨_, rfl, .resets testMode (by rw [he]; rfl)⟩
    | delayDone hold => exact ⟨_, rfl, .completes hold⟩

/-- The inversion of a step. -/
theorem Stepped.of_step {s t : State} (h : step s = .next t) : Stepped s t := by
  obtain ⟨u, hu, hs⟩ := step_stepped s
  rw [h] at hu
  cases hu
  exact hs

end Sys2Proof.Machine
end

section
/-! PROOFS. The step, the port and its errors: waiting, decoding, refusing, faults, modes and reset
(spec/10_state.md R34, R40; spec/30_encoding.md R75; spec/60_exceptions.md R221 to R226;
spec/70_reset_and_hazards.md R250, R251). -/

namespace Sys2Proof.Machine

open Claims

/-! ## Single steps -/

/-- Settles O43: the inversion of a step names the next state in every case. -/
theorem everyStepAnswersNext : Obligations.EveryStepAnswersNext := by
  intro s
  obtain ⟨t, h, -⟩ := step_stepped s
  exact ⟨t, h⟩

/-- Settles O31: in test mode a quiet step changes nothing beyond the schedule. -/
theorem testModeWaitsForCommand : Obligations.TestModeWaitsForCommand := by
  intro s hm hquiet
  rw [step_of_quiet hquiet, quietStep_of_test (s := s.afterMove) hm]
  rfl

/-- Settles O32: the step takes the pair from the schedule, and decoding gives the command. -/
theorem stepRunsDecodedCommand : Obligations.StepRunsDecodedCommand := by
  intro s cmd arg rest i henv hdecode
  rw [step_of_command henv, takeCommand_of_ok hdecode]

/-- R75: an offered word that does not decode raises its error, in test mode with no operation running. -/
theorem step_of_undecodable {s : State} {cmd arg : Word} {rest : List EnvMove} {e : CmdError} (hm : s.mode = .test)
    (hp : s.pending = none) (henv : s.env = .command cmd arg :: rest) (hdecode : decode cmd arg = .error e) :
    step s = .next (raised { s with env := rest } (errorCode e)) := by
  rw [step_of_command henv, takeCommand_of_error hdecode, rejectWord_of_test (s := { s with env := rest }) hm hp,
    State.raise_eq_raised]

/-- Settles O33: an undefined OPC is ILLEGAL_OPCODE; both errors are raised in the same way. -/
theorem undecodableCommandRaises : Obligations.UndecodableCommandRaises := by
  intro s cmd arg rest hm hp henv
  exact ⟨fun hopc => step_of_undecodable hm hp henv (decode_illegal hopc), step_of_undecodable hm hp henv⟩

/-- R224: the commands the statements let through while faulted are those the port lets through. -/
theorem inspects_eq_inspectsState (i : Instr) : inspects i = inspectsState i := by
  cases i <;> rfl

/-- Settles O36: the port turns the command away. -/
theorem faultedBlockExecutesNothing : Obligations.FaultedBlockExecutesNothing := by
  intro i s _ hp he hi
  exact exec_of_faulted he hp ((inspects_eq_inspectsState i).symm.trans hi)

/-- R226: in autonomous mode an offered pair is answered without executing, whether it decodes or not. -/
theorem takeCommand_of_autonomous {s : State} (hm : s.mode = .autonomous) (cmd arg : Word) :
    takeCommand cmd arg s = .next s.turnAway := by
  cases hdecode : decode cmd arg with
  | ok i => rw [takeCommand_of_ok hdecode, exec_of_autonomous i hm]
  | error e => rw [takeCommand_of_error hdecode, rejectWord_of_autonomous hm]

/-- Settles O38: the port answers the pair, and the command, in the same way. -/
theorem autonomousPortExecutesNothing : Obligations.AutonomousPortExecutesNothing := by
  refine ⟨fun s cmd arg rest hm henv => ?_, fun i s hm => exec_of_autonomous i hm⟩
  rw [step_of_command henv, takeCommand_of_autonomous (s := { s with env := rest }) hm]
  rfl

/-- Settles O39: power-on writes every field but those the statement keeps. -/
theorem resetGivesResetState : Obligations.ResetGivesResetState := by
  intro s testMode rest henv
  exact ⟨_, step_of_reset henv, fun _ => rfl, rfl, rfl, rfl, rfl, rfl, rfl, rfl, rfl, rfl, rfl, rfl, rfl, rfl, rfl, rfl,
    rfl⟩

/-- The fields of a word packed as STATUS is (R28). -/
theorem packed_status_fields (alloc mode err : Bool) (code : BitVec 4) (w : Word)
    (hw : w = (0 : BitVec 22) ++ BitVec.ofBool alloc ++ BitVec.ofBool mode ++ code ++ (0 : BitVec 3) ++
      BitVec.ofBool err) :
    w.getLsbD 0 = err ∧ w.extractLsb' 1 3 = 0 ∧ w.extractLsb' 4 4 = code ∧ w.getLsbD 8 = mode ∧ w.getLsbD 9 = alloc ∧
      w.extractLsb' 10 22 = 0 := by
  subst hw
  revert alloc mode err code
  decide

/-- Settles O40: STATUS is packed from its fields, and MODE is 1 in test mode. -/
theorem statusWordFields : Obligations.StatusWordFields := by
  intro s
  have hmode : modeBit s.mode = decide (s.mode = .test) := by cases s.mode <;> rfl
  rw [← hmode]
  exact packed_status_fields s.scrAlloc (modeBit s.mode) s.err s.firstErr _ rfl

/-! ## Errors -/

/-- R220: every code is one of 1 to 6. -/
theorem errorCode_bounds (e : CmdError) : 1 ≤ (errorCode e).toNat ∧ (errorCode e).toNat ≤ 6 := by
  cases e <;> decide

/-- R221, R223: what a command that a ready block runs leaves in STATUS and at the port. -/
theorem meaning_of_no_error {s : State} (he : s.err = false) (i : Instr) :
    (∃ v, (meaning s i).response = okResp v ∧ (meaning s i).err = false ∧ (meaning s i).firstErr = s.firstErr) ∨
    ((meaning s i).pending ≠ none ∧ (meaning s i).err = false ∧ (meaning s i).firstErr = s.firstErr) ∨
    ∃ e, (errorCode e).toNat ∈ ownErrors i ∧ meaning s i = s.raise e := by
  rcases meaning_cases s i with h | ⟨u, hu, ⟨v, h⟩ | ⟨events, ending, hending, h⟩⟩
  · exact .inr (.inr h)
  · have herr : u.err = false := hu.err.trans he
    have hfirst : u.firstErr = s.firstErr := hu.firstErr
    rw [h]
    exact .inl ⟨v, rfl, herr, hfirst⟩
  · have herr : u.err = false := hu.err.trans he
    have hfirst : u.firstErr = s.firstErr := hu.firstErr
    rw [h, runOperation_err, runOperation_firstErr]
    rcases runOperation_port u events hending with ⟨v, hv⟩ | hp
    · exact .inl ⟨v, hv, herr, hfirst⟩
    · exact .inr (.inl ⟨hp, herr, hfirst⟩)

/-- Settles O34: a word that does not decode raises at the port, and a command raises, responds or waits. -/
theorem errorsArePrecise : Obligations.ErrorsArePrecise := by
  intro s t cmd arg rest hs henv hstep
  have hready : { s with env := rest }.ready := hs
  obtain ⟨hm, he, hp⟩ := hs
  cases hdecode : decode cmd arg with
  | error e =>
    rw [step_of_undecodable hm hp henv hdecode] at hstep
    obtain ⟨hlo, hhi⟩ := errorCode_bounds e
    cases hstep
    exact .inr (.inr ⟨errorCode e, hlo, hhi, rfl⟩)
  | ok i =>
    rw [step_of_command henv, takeCommand_of_ok hdecode, hready.exec_eq_meaning] at hstep
    cases hstep
    rcases meaning_of_no_error (s := { s with env := rest }) he i with h | h | ⟨e, -, h⟩
    · exact .inl h
    · exact .inr (.inl h)
    · obtain ⟨hlo, hhi⟩ := errorCode_bounds e
      exact .inr (.inr ⟨errorCode e, hlo, hhi, h⟩)

/-- Settles O35: where ERR is set, the command raised one of its own errors, and FIRST_ERR took its code. -/
theorem ownErrorsPerCommand : Obligations.OwnErrorsPerCommand := by
  intro i s hs
  refine ⟨_, hs.exec_eq_meaning i, fun herr => ?_⟩
  obtain ⟨-, he, -⟩ := hs
  rcases meaning_of_no_error he i with ⟨_, -, hno, -⟩ | ⟨-, hno, -⟩ | ⟨e, hown, h⟩
  · rw [hno] at herr; cases herr
  · rw [hno] at herr; cases herr
  · rw [h, State.raise_firstErr, he]
    exact hown

/-! ## What every step keeps -/

@[simp] theorem sendTick_tickStages_err (s : State) (ending : Ending) :
    (sendTick (tickStages s).state ending).err = s.err :=
  (runOperation_err ..).trans (SamePort.tickStages s).err

@[simp] theorem sendTick_tickStages_firstErr (s : State) (ending : Ending) :
    (sendTick (tickStages s).state ending).firstErr = s.firstErr :=
  (runOperation_firstErr ..).trans (SamePort.tickStages s).firstErr

@[simp] theorem sendTick_tickStages_cfg (s : State) (ending : Ending) :
    (sendTick (tickStages s).state ending).cfg = s.cfg :=
  (runOperation_cfg ..).trans (SamePort.tickStages s).cfg

@[simp] theorem sendTick_tickStages_mode (s : State) (ending : Ending) :
    (sendTick (tickStages s).state ending).mode = s.mode :=
  (runOperation_mode ..).trans (SamePort.tickStages s).mode

@[simp] theorem completeDelay_err (s : State) (hold : Option Nat) : (s.completeDelay hold).err = s.err := by
  obtain ⟨_, _, _, _, _, _, _, h⟩ := s.completeDelay_frame hold
  rw [h]

@[simp] theorem completeDelay_firstErr (s : State) (hold : Option Nat) :
    (s.completeDelay hold).firstErr = s.firstErr := by
  obtain ⟨_, _, _, _, _, _, _, h⟩ := s.completeDelay_frame hold
  rw [h]

@[simp] theorem completeDelay_cfg (s : State) (hold : Option Nat) : (s.completeDelay hold).cfg = s.cfg := by
  obtain ⟨_, _, _, _, _, _, _, h⟩ := s.completeDelay_frame hold
  rw [h]

@[simp] theorem completeDelay_mode (s : State) (hold : Option Nat) : (s.completeDelay hold).mode = s.mode := by
  obtain ⟨_, _, _, _, _, _, _, h⟩ := s.completeDelay_frame hold
  rw [h]

/-- A command keeps the configuration and the mode. -/
theorem meaning_cfg_mode (s : State) (i : Instr) : (meaning s i).cfg = s.cfg ∧ (meaning s i).mode = s.mode := by
  rcases meaning_cases s i with ⟨e, -, h⟩ | ⟨u, hu, ⟨v, h⟩ | ⟨events, ending, -, h⟩⟩
  · rw [h]; exact ⟨rfl, rfl⟩
  · rw [h]; exact ⟨hu.cfg, hu.mode⟩
  · rw [h, runOperation_cfg, runOperation_mode]; exact ⟨hu.cfg, hu.mode⟩

/-- R225: a command that runs while faulted keeps ERR and FIRST_ERR. -/
theorem meaning_of_faulted {s : State} (he : s.err = true) (i : Instr) :
    (meaning s i).err = true ∧ (meaning s i).firstErr = s.firstErr := by
  rcases meaning_cases s i with ⟨e, -, h⟩ | ⟨u, hu, ⟨v, h⟩ | ⟨events, ending, -, h⟩⟩
  · rw [h, State.raise_firstErr, he]; exact ⟨rfl, rfl⟩
  · rw [h]; exact ⟨hu.err.trans he, hu.firstErr⟩
  · rw [h, runOperation_err, runOperation_firstErr]
    exact ⟨hu.err.trans he, hu.firstErr⟩

/-- Settles O37: of the cases of a step only reset clears ERR, and raising while faulted keeps the first code. -/
theorem firstErrorIsSticky : Obligations.FirstErrorIsSticky := by
  intro s he hnoreset
  obtain ⟨t, hstep, ht⟩ := step_stepped s
  refine ⟨t, hstep, ?_⟩
  cases ht with
  | waits => exact ⟨he, rfl⟩
  | ticks => rw [sendTick_tickStages_err, sendTick_tickStages_firstErr]; exact ⟨he, rfl⟩
  | turnsAway => exact ⟨he, rfl⟩
  | rejects e => rw [State.raise_firstErr, State.afterMove_err, he]; exact ⟨rfl, rfl⟩
  | runs i => exact meaning_of_faulted (s := s.afterMove) he i
  | resets testMode hmove => exact absurd hmove (hnoreset testMode)
  | completes hold => rw [completeDelay_err, completeDelay_firstErr]; exact ⟨he, rfl⟩

/-- Settles O41: of the cases of a step only reset writes MODE, and none writes the configuration. -/
theorem configAndModeAreConstant : Obligations.ConfigAndModeAreConstant := by
  intro s
  obtain ⟨t, hstep, ht⟩ := step_stepped s
  refine ⟨t, hstep, ?_⟩
  cases ht with
  | waits => exact ⟨rfl, fun _ => rfl⟩
  | ticks => rw [sendTick_tickStages_cfg, sendTick_tickStages_mode]; exact ⟨rfl, fun _ => rfl⟩
  | turnsAway => exact ⟨rfl, fun _ => rfl⟩
  | rejects e => exact ⟨rfl, fun _ => rfl⟩
  | runs i => exact (meaning_cfg_mode s.afterMove i).imp_right fun h _ => h
  | resets testMode hmove => exact ⟨rfl, fun hnoreset => absurd hmove (hnoreset testMode)⟩
  | completes hold => rw [completeDelay_cfg, completeDelay_mode]; exact ⟨rfl, fun _ => rfl⟩

/-! ## The writers of each piece of state -/

/-- The second state differs from the first only in what the statements let the command write. -/
def WritesOwn (i : Instr) (s t : State) : Prop :=
  (mayWriteFb i = false → t.fb = s.fb) ∧
  (i ≠ .tick → (∀ v, i ≠ .wrreg 0 v) → t.tick = s.tick) ∧
  (i ≠ .flicker → (∀ e h r, i ≠ .flickerx e h r) → i ≠ .tick → (∀ v, i ≠ .wrreg 1 v) → t.lastEvent = s.lastEvent) ∧
  (i ≠ .smear → i ≠ .tick → t.scr = s.scr ∧ t.scrAlloc = s.scrAlloc) ∧
  (i ≠ .transmit → i ≠ .tick →
    t.trace = s.trace ∧ t.clk = s.clk ∧ t.dat = s.dat ∧ t.pending = s.pending ∧ t.hold = s.hold) ∧
  (i ≠ .flicker → i ≠ .smear → i ≠ .tick → t.rand = s.rand ∧ t.drawCount = s.drawCount)

/-- Every command may write the response and STATUS. -/
theorem WritesOwn.port (i : Instr) (s : State) (r : Option Response) (e : Bool) (code : BitVec 4) :
    WritesOwn i s { s with response := r, err := e, firstErr := code } :=
  ⟨fun _ => rfl, fun _ _ => rfl, fun _ _ _ _ => rfl, fun _ _ => ⟨rfl, rfl⟩, fun _ _ => ⟨rfl, rfl, rfl, rfl, rfl⟩,
    fun _ _ _ => ⟨rfl, rfl⟩⟩

/-- A command that may write FB may write it beside the response. -/
theorem WritesOwn.buffer {i : Instr} (hi : mayWriteFb i = true) (s : State) (fb : Memory) (r : Option Response) :
    WritesOwn i s { s with fb := fb, response := r } :=
  ⟨fun h => absurd (hi.symm.trans h) (by decide), fun _ _ => rfl, fun _ _ _ _ => rfl, fun _ _ => ⟨rfl, rfl⟩,
    fun _ _ => ⟨rfl, rfl, rfl, rfl, rfl⟩, fun _ _ _ => ⟨rfl, rfl⟩⟩

/-- The stage of FLICKERX takes no draw from the environment. -/
theorem flickerStage_operands_frame (r e h : Nat) (s : State) :
    ∃ fb last, (flickerStage (.operands r e h) s).state = { s with fb := fb, lastEvent := last } := by
  rcases Nat.lt_or_ge r (flickerDistance s) with hd | hd
  · rw [flickerStage_fires (src := .operands r e h) hd]; exact ⟨_, _, rfl⟩
  · rw [flickerStage_rests (src := .operands r e h) hd]; exact ⟨_, _, rfl⟩

/-- R160: the operation of TRANSMIT does not count. -/
theorem runOperation_transmit_tick (s : State) (events : List Event) :
    (s.runOperation events .transmit).tick = s.tick := by
  rcases s.runOperation_cases events .transmit with ⟨_, h, -⟩ | ⟨_, _, _, _, _, _, h⟩ <;> rw [h] <;> rfl

/-- Each command, once admitted, writes only what the statements let it write. -/
theorem meaning_writesOwn (i : Instr) (s : State) : WritesOwn i s (meaning s i) := by
  cases i with
  | nop => exact .port _ s _ _ _
  | hsv hue sat => exact .port _ s _ _ _
  | paint idx hue sat =>
    simp only [meaning]
    split
    · exact .buffer rfl s _ _
    · exact .port _ s _ _ _
  | flicker =>
    obtain ⟨_, _, _, _, h⟩ := flickerStage_frame .env s
    simp only [meaning]
    rw [h]
    simp [WritesOwn, mayWriteFb, opcOf]
  | flickerx idx hue rdraw =>
    simp only [meaning]
    split
    · split
      · obtain ⟨_, _, h⟩ := flickerStage_operands_frame rdraw.toNat idx.toNat hue.toNat s
        rw [h]
        simp [WritesOwn, mayWriteFb, opcOf]
      · exact .port _ s _ _ _
    · exact .port _ s _ _ _
  | smear =>
    obtain ⟨_, _, _, _, _, h⟩ := smearStage_frame s
    simp only [meaning]
    rw [h]
    simp [WritesOwn, mayWriteFb, opcOf]
  | decay =>
    obtain ⟨_, h⟩ := decayStage_frame s
    simp only [meaning]
    rw [h]
    exact .buffer rfl s _ _
  | transmit =>
    have htick := runOperation_transmit_tick s (frameEvents s.cfg.toParams s.fb)
    obtain ⟨_, _, _, _, _, _, _, h⟩ := s.runOperation_frame (frameEvents s.cfg.toParams s.fb) .transmit
    simp only [meaning]
    rw [h] at htick ⊢
    exact ⟨fun _ => rfl, fun _ _ => htick, fun _ _ _ _ => rfl, fun _ _ => ⟨rfl, rfl⟩, fun hne => absurd rfl hne,
      fun _ _ _ => ⟨rfl, rfl⟩⟩
  | tick => simp [WritesOwn, mayWriteFb, opcOf]
  | rdbuf addr =>
    simp only [meaning]
    split
    · exact .port _ s _ _ _
    · exact .port _ s _ _ _
  | wrbuf addr data =>
    simp only [meaning]
    split
    · exact .buffer rfl s _ _
    · exact .port _ s _ _ _
  | rdreg reg =>
    simp only [meaning]
    cases s.readReg reg with
    | none => exact .port _ s _ _ _
    | some v => exact .port _ s _ _ _
  | wrreg reg value =>
    simp only [meaning]
    cases h : s.writeReg reg value with
    | none => exact .port _ s _ _ _
    | some t =>
      rcases State.writeReg_cases h with ⟨rfl, rfl⟩ | ⟨rfl, rfl⟩ <;> simp [WritesOwn]

/-- Settles O42: a command not taken or turned away writes the response at most, and an admitted one is its meaning. -/
theorem onlyItsWritersChangeState : Obligations.OnlyItsWritersChangeState := by
  intro i s
  rcases exec_cases i s with h | h | ⟨-, -, -, h⟩
  · exact ⟨s, h, WritesOwn.port i s s.response s.err s.firstErr⟩
  · exact ⟨s.turnAway, h, WritesOwn.port i s _ s.err s.firstErr⟩
  · exact ⟨meaning s i, h, meaning_writesOwn i s⟩

end Sys2Proof.Machine
end

section
/-! PROOFS. The invariant: what is stored fits, the port and the lines are legal, and every step keeps both
(spec/10_state.md R24 to R28, R35, R37, R41; spec/42_transmitter.md R163). -/

namespace Sys2Proof.Machine

open Claims

/-! ## What is stored -/

/-- The clauses of the invariant about the buffers and the counters (R24 to R27). -/
structure State.Fits (s : State) : Prop where
  fbCanonical : s.fb.wf = true
  fbInside : s.fb.below s.size = true
  scrCanonical : s.scr.wf = true
  scrInside : s.scr.below s.size = true
  tickFits : s.tick.toNat < 2 ^ s.cfg.wTick
  lastEventFits : s.lastEvent.toNat < 2 ^ s.cfg.wTick

theorem State.Inv.fits {s : State} (h : s.Inv) : s.Fits :=
  ⟨h.fbCanonical, h.fbInside, h.scrCanonical, h.scrInside, h.tickFits, h.lastEventFits⟩

/-- Changes that leave the port alone keep the invariant when what they store fits. -/
theorem State.Inv.of_samePort {s u : State} (h : s.Inv) (hfits : u.Fits) (hu : SamePort s u) : u.Inv where
  fbCanonical := hfits.fbCanonical
  fbInside := hfits.fbInside
  scrCanonical := hfits.scrCanonical
  scrInside := hfits.scrInside
  tickFits := hfits.tickFits
  lastEventFits := hfits.lastEventFits
  noErrNoCode := by rw [hu.err, hu.firstErr]; exact h.noErrNoCode
  errHasCode := by rw [hu.err, hu.firstErr]; exact h.errHasCode
  errInTestMode := by rw [hu.err, hu.mode]; exact h.errInTestMode
  clkLow := by rw [hu.pending, hu.clk]; exact h.clkLow
  restEndsLow := by rw [hu.pending, hu.clk]; exact h.restEndsLow
  delayIsLast := by rw [hu.pending, hu.trace]; exact h.delayIsLast
  endingFits := by rw [hu.pending, hu.mode]; exact h.endingFits
  runningNotFaulted := by rw [hu.pending, hu.err]; exact h.runningNotFaulted
  clkIsLast := by rw [hu.clk, hu.trace]; exact h.clkIsLast
  datIsLast := by rw [hu.dat, hu.trace]; exact h.datIsLast

theorem State.Fits.withFb {s : State} (h : s.Fits) {fb : Memory} (hwf : fb.wf = true)
    (hbelow : fb.below s.size = true) : { s with fb := fb }.Fits :=
  ⟨hwf, hbelow, h.scrCanonical, h.scrInside, h.tickFits, h.lastEventFits⟩

theorem State.Fits.withScr {s : State} (h : s.Fits) {scr : Memory} (alloc : Bool) (hwf : scr.wf = true)
    (hbelow : scr.below s.size = true) : { s with scr := scr, scrAlloc := alloc }.Fits :=
  ⟨h.fbCanonical, h.fbInside, hwf, hbelow, h.tickFits, h.lastEventFits⟩

/-- Nothing stored is a draw. -/
theorem State.Fits.withDraws {s : State} (h : s.Fits) (rand : List Nat) (count : Nat) :
    { s with rand := rand, drawCount := count }.Fits :=
  ⟨h.fbCanonical, h.fbInside, h.scrCanonical, h.scrInside, h.tickFits, h.lastEventFits⟩

theorem State.Fits.withTick {s : State} (h : s.Fits) {tick : Word} (ht : tick.toNat < 2 ^ s.cfg.wTick) :
    { s with tick := tick }.Fits :=
  ⟨h.fbCanonical, h.fbInside, h.scrCanonical, h.scrInside, ht, h.lastEventFits⟩

theorem State.Fits.withLastEvent {s : State} (h : s.Fits) {last : Word} (hl : last.toNat < 2 ^ s.cfg.wTick) :
    { s with lastEvent := last }.Fits :=
  ⟨h.fbCanonical, h.fbInside, h.scrCanonical, h.scrInside, h.tickFits, hl⟩

/-- An element below N is written inside the strip (R105, R121). -/
theorem State.Fits.writeElement {s : State} (h : s.Fits) {e : Nat} (he : e < s.cfg.n) (c : Rgb) :
    { s with fb := s.fb.writeElement e c }.Fits := by
  refine h.withFb (Memory.wf_writeElement h.fbCanonical e c) (Memory.below_writeElement h.fbInside ?_ c)
  show 3 * e + 2 < 3 * s.cfg.n
  omega

theorem State.Fits.writeAll {s : State} (h : s.Fits) (f : Nat → Byte) : { s with fb := s.fb.writeAll s.size f }.Fits :=
  h.withFb (Memory.wf_writeAll h.fbCanonical s.size f) (Memory.below_writeAll h.fbInside f)

theorem DrawSource.fits_after {s : State} (h : s.Fits) (src : DrawSource) : (src.after s).Fits := by
  rw [src.after_eq]
  exact h.withDraws _ _

theorem DrawSource.cfg_after (src : DrawSource) (s : State) : (src.after s).cfg = s.cfg := by
  rw [src.after_eq]

theorem State.Fits.flickerStage {s : State} (h : s.Fits) {src : DrawSource}
    (hindex : src.index (src.after s) < s.cfg.n) : (flickerStage src s).state.Fits := by
  rcases Nat.lt_or_ge (src.interval s) (flickerDistance s) with hd | hd
  · have hafter : (src.after (src.after (src.after s))).Fits :=
      src.fits_after (src.fits_after (src.fits_after h))
    have hcfg : (src.after (src.after (src.after s))).cfg = s.cfg := by rw [src.cfg_after, src.cfg_after, src.cfg_after]
    rw [flickerStage_fires hd]
    refine (hafter.writeElement ?_ _).withLastEvent ?_
    · rw [hcfg]; exact hindex
    · show s.tick.toNat < 2 ^ (src.after (src.after (src.after s))).cfg.wTick
      rw [hcfg]; exact h.tickFits
  · rw [flickerStage_rests hd]
    exact src.fits_after h

/-- R38: the environment draws an element of the strip. -/
theorem DrawSource.index_env_lt (s : State) : DrawSource.env.index s < s.cfg.n :=
  (s.drawValue_in_range (Nat.lt_of_lt_of_le Nat.two_pos s.cfg.ranges.two_le_n)).2

theorem State.Fits.smearStage {s : State} (h : s.Fits) : (smearStage s).state.Fits := by
  cases hg : gateOpen s
  · rw [smearStage_closed hg]
    exact h
  · have hsnap : (takeSnapshot s).Fits :=
      h.withScr true (Memory.wf_writeAll h.scrCanonical s.size s.fb.read) (Memory.below_writeAll h.scrInside s.fb.read)
    obtain ⟨rand, count, hafter⟩ := afterLastValues_frame (takeSnapshot s)
    rw [smearStage_open hg, hafter]
    exact (hsnap.withDraws rand count).writeAll _

theorem State.Fits.decayStage {s : State} (h : s.Fits) : (decayStage s).state.Fits := by
  cases hg : gateOpen s
  · rw [decayStage_closed hg]
    exact h
  · rw [decayStage_open hg]
    exact h.writeAll _

theorem State.Fits.tickStages {s : State} (h : s.Fits) : (tickStages s).state.Fits :=
  (h.flickerStage (src := .env) (DrawSource.index_env_lt _)).smearStage.decayStage

/-! ## The port and the lines -/

/-- The invariant does not speak of the response, the environment or the draws. -/
theorem State.Inv.outside {s : State} (h : s.Inv) (response : Option Response) (hold : Option Nat) (env : List EnvMove)
    (rand : List Nat) (count : Nat) :
    { s with response := response, hold := hold, env := env, rand := rand, drawCount := count }.Inv where
  fbCanonical := h.fbCanonical
  fbInside := h.fbInside
  scrCanonical := h.scrCanonical
  scrInside := h.scrInside
  tickFits := h.tickFits
  lastEventFits := h.lastEventFits
  noErrNoCode := h.noErrNoCode
  errHasCode := h.errHasCode
  errInTestMode := h.errInTestMode
  clkLow := h.clkLow
  restEndsLow := h.restEndsLow
  delayIsLast := h.delayIsLast
  endingFits := h.endingFits
  runningNotFaulted := h.runningNotFaulted
  clkIsLast := h.clkIsLast
  datIsLast := h.datIsLast

theorem State.Inv.respond {s : State} (h : s.Inv) (v : Word) : (s.respond v).Inv :=
  h.outside _ s.hold s.env s.rand s.drawCount

theorem State.Inv.turnAway {s : State} (h : s.Inv) : s.turnAway.Inv :=
  h.outside _ s.hold s.env s.rand s.drawCount

theorem State.Inv.afterMove {s : State} (h : s.Inv) : s.afterMove.Inv :=
  h.outside s.response s.hold _ s.rand s.drawCount

/-- R221, R226: an error is raised in test mode with no operation running, and its code is one of 1 to 6. -/
theorem State.Inv.raise {s : State} (h : s.Inv) (hm : s.mode = .test) (hp : s.pending = none) (e : CmdError) :
    (s.raise e).Inv :=
  { h with
    noErrNoCode := fun herr => absurd herr (by simp)
    errHasCode := fun _ => by
      rw [State.raise_firstErr]
      split
      case isTrue herr => exact h.errHasCode herr
      case isFalse => exact errorCode_bounds e
    errInTestMode := fun _ => hm
    runningNotFaulted := fun hrun => absurd hp hrun }

/-- R181, R184: the increment is wrapped. -/
theorem State.Inv.countTick {s : State} (h : s.Inv) : s.countTick.Inv :=
  h.of_samePort (h.fits.withTick (s.wrapW_lt _)) rfl

theorem State.Inv.finish {s : State} (h : s.Inv) (ending : Ending) : (s.finish ending).Inv := by
  cases ending with
  | transmit => exact h.respond _
  | tick gated fired => exact h.countTick.respond _
  | loop => exact h.countTick

/-- Running an operation keeps the invariant, started between operations or gone on with after a delay: its events take
CLK low, the block is not faulted, and the ending is that of the mode. -/
theorem State.Inv.runOperation {s : State} (h : s.Inv) {events : List Event} {ending : Ending}
    (hlow : clkAfter s.clk events = false) (herr : s.err = false) (hending : ending = .loop ↔ s.mode = .autonomous)
    (hold : Option Nat) : (State.runOperation { s with pending := none, hold := hold } events ending).Inv := by
  rcases State.runOperation_cases { s with pending := none, hold := hold } events ending with
    ⟨left, e, -⟩ | ⟨before, delay, rest, rfl, hdelay, -, e⟩
  · rw [e]
    refine State.Inv.finish ?_ ending
    exact { h with
      clkLow := fun _ => hlow
      restEndsLow := fun _ hp => nomatch hp
      delayIsLast := fun _ hp => nomatch hp
      endingFits := fun _ hp => nomatch hp
      runningNotFaulted := fun _ => herr
      clkIsLast := by rw [State.emit_trace, clkAfter_append, ← h.clkIsLast]; rfl
      datIsLast := by rw [State.emit_trace, datAfter_append, ← h.datIsLast]; rfl }
  · rw [e]
    rw [show before ++ delay :: rest = before ++ [delay] ++ rest by simp, clkAfter_append] at hlow
    exact { h with
      clkLow := fun hp => nomatch hp
      restEndsLow := fun p hp => by cases hp; exact hlow
      delayIsLast := fun p hp => by
        cases hp
        refine ⟨hdelay, ?_⟩
        rw [State.emit_trace, ← List.append_assoc]
        exact List.getLast?_concat
      endingFits := fun p hp => by cases hp; exact hending
      runningNotFaulted := fun _ => herr
      clkIsLast := by rw [State.emit_trace, clkAfter_append, ← h.clkIsLast]; rfl
      datIsLast := by rw [State.emit_trace, datAfter_append, ← h.datIsLast]; rfl }

theorem State.idle_eta {s : State} (hp : s.pending = none) : { s with pending := none, hold := s.hold } = s := by
  rw [← hp]

/-- R163: a frame, and the events of a tick, end with CLK low. -/
theorem State.Inv.startOperation {s : State} (h : s.Inv) (hp : s.pending = none) {events : List Event} {ending : Ending}
    (hlow : clkAfter s.clk events = false) (herr : s.err = false) (hending : ending = .loop ↔ s.mode = .autonomous) :
    (s.runOperation events ending).Inv := by
  have := h.runOperation hlow herr hending s.hold
  rwa [State.idle_eta hp] at this

theorem State.Inv.sendTick {s : State} (h : s.Inv) (hp : s.pending = none) {ending : Ending} (herr : s.err = false)
    (hending : ending = .loop ↔ s.mode = .autonomous) : (sendTick (tickStages s).state ending).Inv := by
  have hport := SamePort.tickStages s
  refine (h.of_samePort h.fits.tickStages hport).startOperation ?_ (clkAfter_tickEvents _ _ _) ?_ ?_
  · rw [hport.pending, hp]
  · rw [hport.err, herr]
  · rw [hport.mode, hending]

/-- Every command keeps the invariant. -/
theorem State.Inv.meaning {s : State} (h : s.Inv) (hm : s.mode = .test) (hp : s.pending = none) {i : Instr}
    (he : s.err = false ∨ inspectsState i = true) : (meaning s i).Inv := by
  have notLoop {ending : Ending} (hne : ending ≠ .loop) : ending = .loop ↔ s.mode = .autonomous := by
    rw [hm]
    exact ⟨fun heq => absurd heq hne, fun heq => nomatch heq⟩
  cases i with
  | nop => exact h.respond _
  | hsv hue sat => exact h.respond _
  | paint idx hue sat =>
    simp only [Machine.meaning]
    split
    case isTrue hidx =>
      exact (h.of_samePort (h.fits.writeElement ((s.validIndex_iff idx).1 hidx) _) rfl).respond _
    case isFalse => exact h.raise hm hp _
  | flicker =>
    exact (h.of_samePort (h.fits.flickerStage (src := .env) (DrawSource.index_env_lt _))
      (SamePort.flickerStage _ s)).respond _
  | flickerx idx hue rdraw =>
    simp only [Machine.meaning]
    split
    case isTrue hidx =>
      split
      case isTrue =>
        exact (h.of_samePort (h.fits.flickerStage (src := .operands _ _ _) ((s.validIndex_iff idx).1 hidx))
          (SamePort.flickerStage _ s)).respond _
      case isFalse => exact h.raise hm hp _
    case isFalse => exact h.raise hm hp _
  | smear => exact (h.of_samePort h.fits.smearStage (SamePort.smearStage s)).respond _
  | decay => exact (h.of_samePort h.fits.decayStage (SamePort.decayStage s)).respond _
  | transmit =>
    exact h.startOperation hp (clkAfter_frameEvents _ _ _) (he.resolve_right (by decide)) (notLoop (by decide))
  | tick => exact h.sendTick hp (he.resolve_right (by decide)) (notLoop (by simp))
  | rdbuf addr =>
    simp only [Machine.meaning]
    split
    case isTrue => exact h.respond _
    case isFalse => exact h.raise hm hp _
  | wrbuf addr data =>
    simp only [Machine.meaning]
    split
    case isTrue haddr =>
      exact (h.of_samePort (h.fits.withFb (Memory.wf_write h.fbCanonical _ _)
        (Memory.below_write h.fbInside ((s.validAddr_iff addr).1 haddr) _)) rfl).respond _
    case isFalse => exact h.raise hm hp _
  | rdreg reg =>
    simp only [Machine.meaning]
    cases s.readReg reg with
    | none => exact h.raise hm hp _
    | some v => exact h.respond v
  | wrreg reg value =>
    simp only [Machine.meaning]
    cases hwrite : s.writeReg reg value with
    | none => exact h.raise hm hp _
    | some t =>
      rcases State.writeReg_cases hwrite with ⟨-, rfl⟩ | ⟨-, rfl⟩
      · exact (h.of_samePort (h.fits.withTick (s.wrapW_lt _)) rfl).respond 0
      · exact (h.of_samePort (h.fits.withLastEvent (s.wrapW_lt _)) rfl).respond 0

theorem State.Inv.completeDelay {s : State} (h : s.Inv) (hold : Option Nat) : (s.completeDelay hold).Inv := by
  unfold State.completeDelay
  split
  · exact h.outside s.response hold s.env s.rand s.drawCount
  · next p hp =>
    have herr := h.runningNotFaulted (by rw [hp]; exact Option.some_ne_none p)
    exact h.runOperation (h.restEndsLow p hp) herr (h.endingFits p hp) hold

/-! ## The statements -/

/-- Settles O45: the buffers are empty, the counters 0, the lines low and the trace empty. -/
theorem resetMeetsInvariant : Obligations.ResetMeetsInvariant := by
  intro cfg testMode
  exact {
    fbCanonical := rfl
    fbInside := rfl
    scrCanonical := rfl
    scrInside := rfl
    tickFits := cfg.pow_wTick_pos
    lastEventFits := cfg.pow_wTick_pos
    noErrNoCode := fun _ => rfl
    errHasCode := fun herr => nomatch herr
    errInTestMode := fun herr => nomatch herr
    clkLow := fun _ => rfl
    restEndsLow := fun _ hp => nomatch hp
    delayIsLast := fun _ hp => nomatch hp
    endingFits := fun _ hp => nomatch hp
    runningNotFaulted := fun _ => rfl
    clkIsLast := rfl
    datIsLast := rfl }

theorem State.Inv.powerOn (s : State) (testMode : Bool) : (s.powerOn testMode).Inv :=
  (resetMeetsInvariant s.cfg testMode).outside none s.hold s.env s.rand s.drawCount

/-- Settles O44: one lemma per case of a step. -/
theorem stepKeepsInvariant : Obligations.StepKeepsInvariant := by
  intro s t h hstep
  have hmove := h.afterMove
  cases Stepped.of_step hstep with
  | waits => exact hmove
  | ticks hm hp =>
    have herr : s.err = false := by
      rw [← Bool.not_eq_true]
      intro he
      rw [h.errInTestMode he] at hm
      cases hm
    exact hmove.sendTick hp herr ⟨fun _ => hm, fun _ => rfl⟩
  | turnsAway => exact hmove.turnAway
  | rejects e hm hp => exact hmove.raise hm hp e
  | runs i hm hp he => exact hmove.meaning hm hp he
  | resets testMode => exact State.Inv.powerOn _ testMode
  | completes hold => exact hmove.completeDelay hold

end Sys2Proof.Machine
end

section
/-! PROOFS. RDREG and WRREG, and the repetition of the access commands (spec/20_memory.md R53;
spec/44_host_access.md R204, R205; spec/10_state.md R31). -/

namespace Sys2Proof.Machine

open Claims

/-- R72: CMD[23:4] of RDREG is reserved, and CMD[3:0] is REG. -/
theorem rowDecodes_rdreg : rowDecodes 0x0B 0x00FFFFF0 (fun cmd _ => .rdreg (cmd.extractLsb' 0 4)) :=
  rowDecodes_of_row (k := 11) (b := 0xFF) (c := 0xFF) (d := 0xF0) rfl (by decide) (by decide) (by decide)

/-- R72: the same of WRREG. -/
theorem rowDecodes_wrreg : rowDecodes 0x0C 0x00FFFFF0 (fun cmd arg => .wrreg (cmd.extractLsb' 0 4) arg) :=
  rowDecodes_of_row (k := 12) (b := 0xFF) (c := 0xFF) (d := 0xF0) rfl (by decide) (by decide) (by decide)

/-- R224: in test mode, faulted or not, a command that inspects runs its meaning. -/
theorem State.inspectable.exec_eq_meaning {s : State} (hs : s.inspectable) {i : Instr} (hi : inspectsState i = true) :
    exec i s = .next (meaning s i) :=
  hs.exec_eq (run := fun s => meaning s i) (hi ▸ exec_eq_command i s)

/-! ## The register map (R31) -/

theorem State.readReg_eq_none_iff (s : State) (reg : BitVec 4) : s.readReg reg = none ↔ 6 ≤ reg.toNat := by
  unfold State.readReg
  split <;> simp_all
  omega

theorem State.writeReg_eq_none {reg : BitVec 4} (h : 2 ≤ reg.toNat) (s : State) (value : Word) :
    s.writeReg reg value = none := by
  unfold State.writeReg
  split <;> simp_all

/-- R28: STATUS in test mode, where MODE is 1, as a sum of its fields. -/
theorem statusWord_eq_statusOf {s : State} (hm : s.mode = .test) : statusWord s = statusOf s := by
  have sum (alloc err : Bool) (code : BitVec 4) :
      (0 : BitVec 22) ++ BitVec.ofBool alloc ++ BitVec.ofBool true ++ code ++ (0 : BitVec 3) ++ BitVec.ofBool err =
        BitVec.ofNat 32 (err.toNat + 16 * code.toNat + 256 + 512 * alloc.toNat) := by
    revert alloc err code
    decide
  unfold statusWord
  rw [hm]
  exact sum s.scrAlloc s.err s.firstErr

/-- R30: LINES as a sum of its fields. -/
theorem linesWord_eq (s : State) : linesWord s = BitVec.ofNat 32 (s.clk.toNat + 2 * s.dat.toNat) := by
  have sum (clk dat : Bool) :
      (0 : BitVec 30) ++ BitVec.ofBool dat ++ BitVec.ofBool clk = BitVec.ofNat 32 (clk.toNat + 2 * dat.toNat) := by
    revert clk dat
    decide
  exact sum s.clk s.dat

/-- R204: RDREG of a register the map names responds it. -/
theorem exec_rdreg_of_some {s : State} (hs : s.inspectable) {reg : BitVec 4} {v : Word} (h : s.readReg reg = some v) :
    exec (.rdreg reg) s = .next { s with response := okResp v } := by
  rw [hs.exec_eq_meaning rfl, meaning, h]
  rfl

theorem exec_rdreg_of_none {s : State} (hs : s.inspectable) {reg : BitVec 4} (h : s.readReg reg = none) :
    exec (.rdreg reg) s = .next (raised s 3) := by
  rw [hs.exec_eq_meaning rfl, meaning, h]
  rfl

/-- Settles O4: one register of the map after the other; STATUS and LINES are sums of their fields. -/
theorem rdregReadsMap : Obligations.RdregReadsMap := by
  refine ⟨rowDecodes_rdreg, fun s hs => ⟨exec_rdreg_of_some hs rfl, exec_rdreg_of_some hs rfl, ?_,
    exec_rdreg_of_some hs rfl, exec_rdreg_of_some hs rfl, ?_,
    fun reg hreg => exec_rdreg_of_none hs ((s.readReg_eq_none_iff reg).2 hreg)⟩⟩
  · obtain ⟨hm, -⟩ := id hs
    rw [← statusWord_eq_statusOf hm]
    exact exec_rdreg_of_some hs rfl
  · rw [← linesWord_eq]
    exact exec_rdreg_of_some hs rfl

/-- Settles O5: the two registers that can be written take the wrapped value, every other number is refused. -/
theorem wrregWritesMap : Obligations.WrregWritesMap := by
  refine ⟨rowDecodes_wrreg, fun s value hs =>
    ⟨hs.exec_eq_meaning (.wrreg 0 value), hs.exec_eq_meaning (.wrreg 1 value), fun reg hreg => ?_⟩⟩
  rw [hs.exec_eq_meaning, meaning, State.writeReg_eq_none hreg]
  rfl

/-! ## Repetition (R53) -/

/-- A second write of the same byte to the same address changes nothing more. -/
theorem Memory.write_write {m : Memory} (h : m.wf = true) (a : Nat) (v : Byte) :
    (m.write a v).write a v = m.write a v := by
  have hwrite := Memory.wf_write h a v
  refine Memory.ext_of_wf (Memory.wf_write hwrite a v) hwrite fun b => ?_
  rw [Memory.read_write hwrite, Memory.read_write h]
  split <;> rfl

/-- The register map does not look at the response. -/
theorem State.readReg_respond (s : State) (reg : BitVec 4) (v : Word) : (s.respond v).readReg reg = s.readReg reg := rfl

/-- Which numbers the map reads is the same in every state. -/
theorem State.readReg_eq_none_of_eq_none {s t : State} {reg : BitVec 4} (h : s.readReg reg = none) :
    t.readReg reg = none := by
  rw [State.readReg_eq_none_iff] at h ⊢
  exact h

/-- Wrapping does not look at the registers. -/
theorem State.writeReg_repeat {s t : State} {reg : BitVec 4} {value : Word} (h : s.writeReg reg value = some t)
    (v : Word) :
    (t.respond v).writeReg reg value = some (t.respond v) := by
  rcases State.writeReg_cases h with ⟨rfl, rfl⟩ | ⟨rfl, rfl⟩ <;> rfl

/-- A faulted block turns away a second command that does not inspect, and raising left the same response. -/
theorem exec_of_raised {s : State} (hp : s.pending = none) {i : Instr} (hi : inspectsState i = false) (e : CmdError) :
    exec i (s.raise e) = .next (s.raise e) :=
  exec_of_faulted (s := s.raise e) rfl hp hi

/-- An access command that runs leaves a state in which it changes nothing more. -/
theorem exec_meaning_of_access {i : Instr} {s : State} (hi : opcOf i ∈ [9, 10, 11, 12]) (hm : s.mode = .test)
    (hp : s.pending = none) (he : s.err = false ∨ inspectsState i = true) (hwf : s.fb.wf = true) :
    exec i (meaning s i) = .next (meaning s i) := by
  have respond_inspectable (v : Word) : (s.respond v).inspectable := ⟨hm, hp⟩
  have raise_inspectable (e : CmdError) : (s.raise e).inspectable := ⟨hm, hp⟩
  cases i with
  | rdbuf addr =>
    by_cases haddr : s.validAddr addr = true
    · simp only [meaning, if_pos haddr]
      rw [(respond_inspectable _).exec_eq_meaning rfl]
      exact congrArg _ (if_pos haddr)
    · simp only [meaning, if_neg haddr]
      rw [(raise_inspectable _).exec_eq_meaning rfl]
      exact congrArg _ (if_neg haddr)
  | rdreg reg =>
    cases hread : s.readReg reg with
    | some v =>
      simp only [meaning, hread, Option.elim_some]
      rw [(respond_inspectable _).exec_eq_meaning rfl, meaning, State.readReg_respond, hread]
      rfl
    | none =>
      simp only [meaning, hread, Option.elim_none]
      rw [(raise_inspectable _).exec_eq_meaning rfl, meaning, State.readReg_eq_none_of_eq_none hread]
      rfl
  | wrbuf addr data =>
    by_cases haddr : s.validAddr addr = true
    · have hready : ({ s with fb := s.fb.write addr.toNat data }.respond 0).ready :=
        ⟨hm, he.resolve_right Bool.false_ne_true, hp⟩
      simp only [meaning, if_pos haddr]
      refine (exec_wrbuf_of_lt hready ((s.validAddr_iff addr).1 haddr) data).trans ?_
      show Host.Outcome.next
        (State.respond { s with fb := (s.fb.write addr.toNat data).write addr.toNat data } 0) = _
      rw [Memory.write_write hwf]
    · simp only [meaning, if_neg haddr]
      exact exec_of_raised hp rfl _
  | wrreg reg value =>
    cases hwrite : s.writeReg reg value with
    | some t =>
      have hready : (t.respond 0).ready := by
        have herr := he.resolve_right Bool.false_ne_true
        rcases State.writeReg_cases hwrite with ⟨-, rfl⟩ | ⟨-, rfl⟩
        · exact ⟨hm, herr, hp⟩
        · exact ⟨hm, herr, hp⟩
      simp only [meaning, hwrite, Option.elim_some]
      rw [hready.exec_eq_meaning, meaning, State.writeReg_repeat hwrite]
      rfl
    | none =>
      simp only [meaning, hwrite, Option.elim_none]
      exact exec_of_raised hp rfl _
  | _ => simp [opcOf] at hi

/-- R53: a command that inspects writes the response and STATUS alone. -/
theorem meaning_of_inspects {i : Instr} (hi : inspectsState i = true) (s : State) :
    { meaning s i with response := s.response, err := s.err, firstErr := s.firstErr } = s := by
  cases i with
  | rdbuf addr => simp only [meaning]; split <;> rfl
  | rdreg reg => simp only [meaning]; cases s.readReg reg <;> rfl
  | _ => cases hi

theorem State.admits_iff (s : State) (inspects : Bool) :
    s.admits inspects = true ↔ s.mode = .test ∧ (s.err = false ∨ inspects = true) := by
  unfold State.admits
  cases s.mode <;> simp

/-- Settles O6: a command not taken, or turned away, is so again; one that runs leaves a state it does not change. -/
theorem repeatedAccessIsIdempotent : Obligations.RepeatedAccessIsIdempotent := by
  intro i s t hi hwf ht
  rw [inspects_eq_inspectsState]
  cases hb : s.busy with
  | true =>
    rw [exec_of_busy i hb] at ht
    cases ht
    exact ⟨exec_of_busy i hb, fun _ => rfl⟩
  | false =>
    rw [exec_eq_command] at ht
    cases ha : s.admits (inspectsState i) with
    | true =>
      rw [State.command_of_admits hb ha] at ht
      cases ht
      obtain ⟨hm, he⟩ := (s.admits_iff _).1 ha
      have hp := (State.busy_eq_false_iff.1 hb).resolve_left (by rw [hm]; decide)
      exact ⟨exec_meaning_of_access hi hm hp he hwf, fun hinspects => meaning_of_inspects hinspects s⟩
    | false =>
      rw [State.command_of_not_admits hb ha] at ht
      cases ht
      refine ⟨?_, fun _ => rfl⟩
      rw [exec_eq_command, State.command_of_not_admits (s := s.turnAway) hb ha]
      rfl

end Sys2Proof.Machine
end

section
/-! PROOFS. HSV and PAINT, and the Color Model against the rational model (spec/40_color_model.md R101 to R106). -/

namespace Sys2Proof.Machine

open Claims

/-- R72: CMD[23:16] of HSV is reserved. -/
theorem rowDecodes_hsv :
    rowDecodes 0x01 0x00FF0000 (fun cmd _ => .hsv (cmd.extractLsb' 0 8) (cmd.extractLsb' 8 8)) :=
  rowDecodes_of_row (k := 1) (b := 0xFF) (c := 0) (d := 0) rfl (by decide) (by decide) (by decide)

/-- R72: the same of PAINT. -/
theorem rowDecodes_paint :
    rowDecodes 0x02 0x00FF0000 (fun cmd arg => .paint arg (cmd.extractLsb' 0 8) (cmd.extractLsb' 8 8)) :=
  rowDecodes_of_row (k := 2) (b := 0xFF) (c := 0) (d := 0) rfl (by decide) (by decide) (by decide)

/-- R51: the response word of a color by numbers. -/
theorem colorWord_eq_packed (c : Rgb) : colorWord c = packed c := by
  apply BitVec.eq_of_toNat_eq
  have hr := c.r.isLt
  have hg := c.g.isLt
  have hb := c.b.isLt
  have hzero : (0 : Byte).toNat = 0 := rfl
  refine (toNat_packCmd 0 c.r c.g c.b).trans ?_
  rw [packed, BitVec.toNat_ofNat]
  omega

/-- Settles O7: a ready block runs HSV, which only responds. -/
theorem hsvRespondsColor : Obligations.HsvRespondsColor := by
  refine ⟨rowDecodes_hsv, fun s hue sat hs => ?_⟩
  rw [hs.exec_eq_meaning, meaning, colorWord_eq_packed, State.respond_eq_okResp]

/-- Settles O8: one case per outcome of the index check; the bytes of the buffer are those of one element write. -/
theorem paintWritesElement : Obligations.PaintWritesElement := by
  refine ⟨rowDecodes_paint, fun s idx hue sat hs hwf => ?_⟩
  rw [hs.exec_eq_meaning, meaning, ← colorWord_eq_packed]
  refine ⟨fun hidx => ?_, fun hidx => ?_⟩
  · rw [if_pos ((s.validIndex_iff idx).2 hidx)]
    exact ⟨_, rfl, Memory.read_writeElement hwf idx.toNat (color hue sat), rfl⟩
  · rw [if_neg (mt (s.validIndex_iff idx).1 (Nat.not_lt.2 hidx)), State.raise_eq_raised]
    rfl

end Sys2Proof.Machine
end

section
/-! PROOFS. The integer color against the rational HSV model, and its properties (spec/40_color_model.md R101, R106). -/

namespace Sys2Proof.Machine

open Claims

/-! ## The sectors of the integer conversion -/

/-- `cq` of R101: the falling ramp inside a sector. -/
def fallingChannel (hue sat : Byte) : Byte := BitVec.ofNat 8 (sat.toNat * (6 * hue.toNat % 256) / 256)

/-- `ct` of R101: the rising ramp inside a sector. -/
def risingChannel (hue sat : Byte) : Byte := BitVec.ofNat 8 (sat.toNat * (256 - 6 * hue.toNat % 256) / 256)

/-- The sector table of R101 with its case. -/
theorem color_sectors {sat : Byte} (hsat : sat ≠ 0) (hue : Byte) :
    (6 * hue.toNat / 256 = 0 ∧ color hue sat = { r := 0, g := risingChannel hue sat, b := sat }) ∨
    (6 * hue.toNat / 256 = 1 ∧ color hue sat = { r := fallingChannel hue sat, g := 0, b := sat }) ∨
    (6 * hue.toNat / 256 = 2 ∧ color hue sat = { r := sat, g := 0, b := risingChannel hue sat }) ∨
    (6 * hue.toNat / 256 = 3 ∧ color hue sat = { r := sat, g := fallingChannel hue sat, b := 0 }) ∨
    (6 * hue.toNat / 256 = 4 ∧ color hue sat = { r := risingChannel hue sat, g := sat, b := 0 }) ∨
    (6 * hue.toNat / 256 = 5 ∧ color hue sat = { r := 0, g := sat, b := fallingChannel hue sat }) := by
  have hlt := hue.isLt
  have hle : 6 * hue.toNat / 256 ≤ 5 := by omega
  unfold color
  rw [if_neg hsat]
  interval_cases h : 6 * hue.toNat / 256 <;> simp [h, fallingChannel, risingChannel]

/-- A ramp is never above its top. -/
theorem mul_div_256_le (v : Nat) {w : Nat} (hw : w ≤ 256) : v * w / 256 ≤ v := by
  apply Nat.div_le_of_le_mul
  rw [Nat.mul_comm 256]
  exact Nat.mul_le_mul_left v hw

theorem fallingChannel_toNat (hue sat : Byte) :
    (fallingChannel hue sat).toNat = sat.toNat * (6 * hue.toNat % 256) / 256 := by
  have hle := mul_div_256_le sat.toNat (show 6 * hue.toNat % 256 ≤ 256 by omega)
  exact (BitVec.toNat_ofNat _ _).trans (Nat.mod_eq_of_lt (lt_of_le_of_lt hle sat.isLt))

theorem risingChannel_toNat (hue sat : Byte) :
    (risingChannel hue sat).toNat = sat.toNat * (256 - 6 * hue.toNat % 256) / 256 := by
  have hle := mul_div_256_le sat.toNat (show 256 - 6 * hue.toNat % 256 ≤ 256 by omega)
  exact (BitVec.toNat_ofNat _ _).trans (Nat.mod_eq_of_lt (lt_of_le_of_lt hle sat.isLt))

theorem fallingChannel_le (hue sat : Byte) : fallingChannel hue sat ≤ sat := by
  rw [BitVec.le_def, fallingChannel_toNat]
  exact mul_div_256_le _ (by omega)

theorem risingChannel_le (hue sat : Byte) : risingChannel hue sat ≤ sat := by
  rw [BitVec.le_def, risingChannel_toNat]
  exact mul_div_256_le _ (by omega)

/-- Settles O11: each sector has a channel at 0, one at sat, and a ramp between them. -/
theorem colorComplementQuirk : Obligations.ColorComplementQuirk := by
  refine ⟨fun hue sat hsat => ?_, by decide, by decide⟩
  have hfall := fallingChannel_le hue sat
  have hrise := risingChannel_le hue sat
  have hzero : 0#8 ≤ sat := BitVec.le_def.2 (Nat.zero_le _)
  rcases color_sectors hsat hue with ⟨-, h⟩ | ⟨-, h⟩ | ⟨-, h⟩ | ⟨-, h⟩ | ⟨-, h⟩ | ⟨-, h⟩ <;> rw [h] <;> simp [*]

/-! ## The sectors of the rational conversion -/

/-- The exact channels of a sector, at the fraction `f` inside it. -/
def exactSector (sat f : ℚ) : Nat → ℚ × ℚ × ℚ
  | 0 => (1, 1 - sat * (1 - f), 1 - sat)
  | 1 => (1 - sat * f, 1, 1 - sat)
  | 2 => (1 - sat, 1, 1 - sat * (1 - f))
  | 3 => (1 - sat, 1 - sat * f, 1)
  | 4 => (1 - sat * (1 - f), 1 - sat, 1)
  | _ => (1, 1 - sat, 1 - sat * f)

/-- The exact model goes by the sector and the fraction inside it. -/
theorem exactHsv_of_sector {h sat : ℚ} {k : Nat} {f : ℚ} (hk : ⌊6 * h⌋ = k) (hf : 6 * h - k = f) :
    exactHsv h sat = exactSector sat f k := by
  subst hf
  unfold exactHsv
  simp only [hk, Int.cast_natCast]
  match k with
  | 0 | 1 | 2 | 3 | 4 => rfl
  | k + 5 =>
    rw [if_neg (by omega), if_neg (by omega), if_neg (by omega), if_neg (by omega), if_neg (by omega)]
    rfl

theorem floor_natCast_div_256 (n : Nat) : ⌊(n : ℚ) / 256⌋ = ((n / 256 : Nat) : Int) :=
  Rat.floor_natCast_div_natCast n 256

/-- R101: with H = hue/256 the sector is `6·hue div 256`, and the fraction inside it is `(6·hue mod 256)/256`. -/
theorem exactHsv_sector (hue : Byte) :
    ⌊6 * ((hue.toNat : ℚ) / 256)⌋ = ((6 * hue.toNat / 256 : Nat) : Int) ∧
    6 * ((hue.toNat : ℚ) / 256) - ((6 * hue.toNat / 256 : Nat) : ℚ) = ((6 * hue.toNat % 256 : Nat) : ℚ) / 256 := by
  have hsix : 6 * ((hue.toNat : ℚ) / 256) = ((6 * hue.toNat : Nat) : ℚ) / 256 := by push_cast; ring
  rw [hsix]
  refine ⟨floor_natCast_div_256 _, ?_⟩
  have hdiv : ((6 * hue.toNat : Nat) : ℚ) = ((256 * (6 * hue.toNat / 256) + 6 * hue.toNat % 256 : Nat) : ℚ) :=
    congrArg Nat.cast (Nat.div_add_mod _ 256).symm
  rw [hdiv]
  push_cast
  ring

/-! ## The floor of each kind of channel -/

theorem floor_zero_channel : (((0 : Byte).toNat : Nat) : Int) = ⌊(1 - 1 : ℚ) * 255⌋ := by norm_num

theorem floor_sat_channel (sat : Byte) : (sat.toNat : Int) = ⌊(1 - (1 - (sat.toNat : ℚ) / 255)) * 255⌋ := by
  rw [show (1 - (1 - (sat.toNat : ℚ) / 255)) * 255 = ((sat.toNat : Int) : ℚ) by push_cast; ring, Int.floor_intCast]

theorem floor_falling_channel (hue sat : Byte) :
    ((fallingChannel hue sat).toNat : Int) =
      ⌊(1 - (1 - (sat.toNat : ℚ) / 255 * (((6 * hue.toNat % 256 : Nat) : ℚ) / 256))) * 255⌋ := by
  rw [fallingChannel_toNat, ← floor_natCast_div_256]
  congr 1
  push_cast
  ring

theorem floor_rising_channel (hue sat : Byte) :
    ((risingChannel hue sat).toNat : Int) =
      ⌊(1 - (1 - (sat.toNat : ℚ) / 255 * (1 - ((6 * hue.toNat % 256 : Nat) : ℚ) / 256))) * 255⌋ := by
  have hle : 6 * hue.toNat % 256 ≤ 256 := by omega
  rw [risingChannel_toNat, ← floor_natCast_div_256]
  congr 1
  push_cast [Nat.cast_sub hle]
  ring

/-- Settles O10: the two sector tables go by the same sector, and channel by channel the integer one is the floor. -/
theorem colorIsFloorOfExactComplement : Obligations.ColorIsFloorOfExactComplement := by
  intro hue sat hsat x
  obtain ⟨hsector, hfraction⟩ := exactHsv_sector hue
  have hx : x = exactSector _ _ _ := exactHsv_of_sector hsector hfraction
  have hzero := floor_zero_channel
  have hfull := floor_sat_channel sat
  have hfall := floor_falling_channel hue sat
  have hrise := floor_rising_channel hue sat
  rw [hx]
  rcases color_sectors hsat hue with ⟨hk, h⟩ | ⟨hk, h⟩ | ⟨hk, h⟩ | ⟨hk, h⟩ | ⟨hk, h⟩ | ⟨hk, h⟩ <;> rw [hk, h]
  · exact ⟨hzero, hrise, hfull⟩
  · exact ⟨hfall, hzero, hfull⟩
  · exact ⟨hfull, hzero, hrise⟩
  · exact ⟨hfull, hfall, hzero⟩
  · exact ⟨hrise, hfull, hzero⟩
  · exact ⟨hzero, hfull, hfall⟩

end Sys2Proof.Machine
end

section
/-! PROOFS. Draws, and FLICKER on the environment's draws (spec/10_state.md R38; spec/41_effects.md R121 to R125). -/

namespace Sys2Proof.Machine

open Claims

/-! ## Draws -/

/-- Settles O12: a draw from a nonempty range, and one the channel has a fitting answer for. -/
theorem drawLiesInRange : Obligations.DrawLiesInRange := by
  intro s lo hi hrange
  refine ⟨s.drawValue_in_range hrange, fun v rest hlo hhi hrand => ⟨State.drawValue_of_answer hrand hlo hhi, ?_⟩⟩
  rw [State.afterDraw_rand, hrand, List.tail_cons]

/-- A draw after `k` draws is the next one. -/
theorem afterDraw_drawn (s : State) (k : Nat) : (drawn s k).afterDraw = drawn s (k + 1) := by
  simp only [State.afterDraw, drawn, List.tail_drop, Nat.add_assoc]

theorem afterDraw_eq_drawn (s : State) : s.afterDraw = drawn s 1 := afterDraw_drawn s 0

/-! ## The stage -/

/-- R121, R123: on the environment's draws the stage fires where the distance exceeds the interval drawn; it then
draws the element and the hue. -/
theorem flickerStage_env_fires {s : State} (h : (s.drawValue s.cfg.flkLo s.cfg.flkHi : Int) < distance s) :
    flickerStage .env s =
      { outcome := true
        state := { drawn s 3 with
          fb := s.fb.writeElement ((drawn s 1).drawValue 0 s.cfg.n)
            (color (BitVec.ofNat 8 ((drawn s 2).drawValue 0 256)) 255)
          lastEvent := s.tick } } := by
  rw [← flickerDistance_eq_distance, Nat.cast_lt] at h
  rw [flickerStage_fires (src := .env) h, flickerColor_eq]
  simp only [DrawSource.after, afterDraw_eq_drawn s, afterDraw_drawn]
  rfl

/-- R121: otherwise it has drawn the interval alone. -/
theorem flickerStage_env_rests {s : State} (h : distance s ≤ s.drawValue s.cfg.flkLo s.cfg.flkHi) :
    flickerStage .env s = { outcome := false, state := drawn s 1 } := by
  rw [← flickerDistance_eq_distance, Nat.cast_le] at h
  rw [flickerStage_rests (src := .env) h, DrawSource.after, afterDraw_eq_drawn]

/-- Settles O15: the stage writes one element and the event time where it fires, and draws alone where it does not. -/
theorem flickerStageTouchesOneElement : Obligations.FlickerStageTouchesOneElement := by
  intro s src hwf
  rcases Nat.lt_or_ge (src.interval s) (flickerDistance s) with h | h
  · have hfb : (src.after (src.after (src.after s))).fb = s.fb := by
      rw [src.after_eq (src.after (src.after s)), src.after_eq (src.after s), src.after_eq s]
    rw [flickerStage_fires h]
    refine ⟨fun _ => ⟨rfl, fun a ha => ?_⟩, fun hrest => Bool.noConfusion hrest⟩
    rw [hfb, Memory.read_writeElement hwf, if_neg (by omega), if_neg (by omega), if_neg (by omega)]
  · rw [flickerStage_rests h]
    refine ⟨fun hfire => Bool.noConfusion hfire, fun _ => ?_⟩
    rw [src.after_eq s]
    exact ⟨rfl, rfl⟩

/-! ## The command -/

/-- R72: all of CMD[23:0] of FLICKER is reserved. -/
theorem rowDecodes_flicker : rowDecodes 0x03 0x00FFFFFF (fun _ _ => .flicker) :=
  rowDecodes_of_row (k := 3) (b := 0xFF) (c := 0xFF) (d := 0xFF) rfl (by decide) (by decide) (by decide)

/-- Settles O13: the two branches of the stage. -/
theorem flickerFiresOnDistance : Obligations.FlickerFiresOnDistance := by
  refine ⟨rowDecodes_flicker, fun s hs hwf => ⟨fun hfire => ?_, fun hrest => ?_⟩⟩
  · rw [exec_flicker_of_ready hs, flickerStage_env_fires hfire, outcomeWord_true]
    exact ⟨_, rfl, Memory.read_writeElement hwf _ _, rfl, rfl⟩
  · rw [exec_flicker_of_ready hs, flickerStage_env_rests hrest, outcomeWord_false, State.respond_eq_okResp]

/-- R125: the response of FLICKER says whether the distance exceeds the interval drawn. -/
theorem exec_flicker_response {s : State} (hs : s.ready) :
    ((s.drawValue s.cfg.flkLo s.cfg.flkHi : Int) < distance s →
      ∃ t, exec .flicker s = .next t ∧ t.response = okResp 1) ∧
    (distance s ≤ s.drawValue s.cfg.flkLo s.cfg.flkHi → ∃ t, exec .flicker s = .next t ∧ t.response = okResp 0) := by
  rw [exec_flicker_of_ready hs]
  refine ⟨fun h => ⟨_, rfl, ?_⟩, fun h => ⟨_, rfl, ?_⟩⟩
  · rw [flickerStage_env_fires h, outcomeWord_true]; rfl
  · rw [flickerStage_env_rests h, outcomeWord_false]; rfl

/-- Settles O16: the interval drawn lies in [FLK_LO, FLK_HI), and each end of the range can be drawn. -/
theorem flickerFiringBounds : Obligations.FlickerFiringBounds := by
  intro s hs
  have hrange := s.cfg.ranges.lo_lt_hi
  obtain ⟨hlo, hhi⟩ := s.drawValue_in_range hrange
  refine ⟨fun hnear => ?_, fun hfar => ?_, fun hmore hless => ⟨?_, ?_⟩⟩
  · exact (exec_flicker_response hs).2 (by omega)
  · exact (exec_flicker_response hs).1 (by omega)
  · have hready : { s with rand := [s.cfg.flkLo] }.ready := hs
    refine (exec_flicker_response hready).1 ?_
    rw [State.drawValue_of_answer (v := s.cfg.flkLo) rfl le_rfl hrange]
    exact hmore
  · have hready : { s with rand := [s.cfg.flkHi - 1] }.ready := hs
    refine (exec_flicker_response hready).2 ?_
    have hlast : s.cfg.flkHi - 1 < s.cfg.flkHi := by omega
    rw [State.drawValue_of_answer (v := s.cfg.flkHi - 1) rfl (Nat.le_sub_one_of_lt hrange) hlast]
    show distance s ≤ _
    omega

end Sys2Proof.Machine
end

section
/-! PROOFS. SMEAR: the draws and neighbours of the last element, the new bytes, and what a pass keeps
(spec/41_effects.md R130 to R134). -/

namespace Sys2Proof.Machine

open Claims

/-! ## The draws of ANY channels (R131) -/

theorem drawn_drawn (s : State) (j k : Nat) : drawn (drawn s j) k = drawn s (j + k) := by
  simp only [drawn, List.drop_drop, Nat.add_assoc]

theorem anyBelow_zero (l : LastSrc) : anyBelow l 0 = 0 := rfl

theorem anyBelow_succ (l : LastSrc) (c : Nat) :
    anyBelow l (c + 1) = anyBelow l c + if sourceOf l c = some .any then 1 else 0 := by
  unfold anyBelow
  rw [List.range_succ, List.filter_append, List.length_append, List.filter_singleton]
  split <;> simp_all

theorem afterNeighbour_eq_drawn (src : NeighbourByte) (s : State) :
    afterNeighbour src s = drawn s (if some src = some .any then 1 else 0) := by
  cases src with
  | byte k => rfl
  | any => exact afterDraw_eq_drawn s

/-- The draws of a literal source are those below channel 1, below channel 2, and all of them. -/
theorem afterNeighbour_literal (r g b : NeighbourByte) (s : State) :
    afterNeighbour r s = drawn s (anyBelow (.literal r g b) 1) ∧
    afterNeighbour g (afterNeighbour r s) = drawn s (anyBelow (.literal r g b) 2) ∧
    afterNeighbour b (afterNeighbour g (afterNeighbour r s)) = drawn s (anyBelow (.literal r g b) 3) := by
  simp only [afterNeighbour_eq_drawn, drawn_drawn, anyBelow_succ, anyBelow_zero, sourceOf, Nat.zero_add, and_self]

/-- R131: one draw for each ANY channel. -/
theorem afterLastValues_eq_drawn (s : State) : afterLastValues s = drawn s (anyBelow s.cfg.lastSrc 3) := by
  unfold afterLastValues
  split
  · next h => rw [h]; rfl
  · next r g b h =>
    obtain ⟨-, -, hall⟩ := afterNeighbour_literal r g b s
    rw [h, hall]

/-! ## The neighbours of the last element (R131) -/

/-- The neighbour of a literal channel: a byte of the old buffer, or the draw after those of the channels below. -/
theorem lastNeighbour_of_literal {s : State} {c : Nat} (hc : c < 3) {src : NeighbourByte}
    (h : sourceOf s.cfg.lastSrc c = some src) :
    neighbourValue src (drawn (takeSnapshot s) (anyBelow s.cfg.lastSrc c)) = lastNeighbour s c := by
  unfold lastNeighbour
  rw [h]
  cases src with
  | byte j =>
    have hj := (LastSrc.legal_iff _ _).1 s.cfg.ranges.lastSrc_legal c j hc h
    exact congrArg BitVec.toNat (takeSnapshot_read s hj)
  | any => exact State.drawValue_congr rfl rfl 0 256

/-- The value the model uses for channel `c` of the last element is the one of the statements. -/
theorem lastValues_channel (s : State) {c : Nat} (hc : c < 3) :
    (lastValues (takeSnapshot s)).channel c = lastNeighbour s c := by
  unfold lastValues
  rw [takeSnapshot_cfg]
  cases hl : s.cfg.lastSrc with
  | symmetric =>
    have hn := s.cfg.ranges.two_le_n
    have hread : ((takeSnapshot s).scr.read (3 * (s.cfg.n - 2) + c)).toNat = lastNeighbour s c := by
      unfold lastNeighbour
      rw [hl]
      exact congrArg BitVec.toNat (takeSnapshot_read s (by omega))
    interval_cases c <;> exact hread
  | literal r g b =>
    obtain ⟨hone, htwo, -⟩ := afterNeighbour_literal r g b (takeSnapshot s)
    have hneighbour {c : Nat} (hc : c < 3) {src : NeighbourByte} (h : sourceOf (.literal r g b) c = some src) :
        neighbourValue src (drawn (takeSnapshot s) (anyBelow (.literal r g b) c)) = lastNeighbour s c := by
      rw [← hl] at h ⊢
      exact lastNeighbour_of_literal hc h
    interval_cases c
    · exact hneighbour hc rfl
    · simp only [LastValues.channel, hone]
      exact hneighbour hc rfl
    · simp only [LastValues.channel, htwo]
      exact hneighbour hc rfl

/-! ## The new bytes (R130) -/

/-- What a pass with the gate open writes. -/
theorem smearStage_open_eq {s : State} (h : gateOpen s = true) :
    smearStage s = { outcome := true
                     state := { drawn s (anyBelow s.cfg.lastSrc 3) with
                       scr := s.scr.writeAll s.size s.fb.read
                       scrAlloc := true
                       fb := s.fb.writeAll s.size
                         (smearByte s.cfg.toParams (takeSnapshot s).scr (lastValues (takeSnapshot s))) } } := by
  rw [smearStage_open h, afterLastValues_eq_drawn]
  rfl

section NewBytes

variable {s : State} (h : gateOpen s = true)

include h

theorem old_smearStage {a : Nat} (ha : a < 3 * s.cfg.n) :
    old (smearStage s).state a =
      (smearByte s.cfg.toParams (takeSnapshot s).scr (lastValues (takeSnapshot s)) a).toNat := by
  rw [smearStage_open_eq h, old, Memory.read_writeAll, if_pos (show a < s.size from ha)]

theorem read_smearStage_outside {a : Nat} (ha : 3 * s.cfg.n ≤ a) : (smearStage s).state.fb.read a = s.fb.read a := by
  rw [smearStage_open_eq h, Memory.read_writeAll, if_neg (show ¬ a < s.size from Nat.not_lt.2 ha)]

theorem old_smearStage_first {c : Nat} (hc : c < 3) :
    old (smearStage s).state c =
      ((s.cfg.fDen - s.cfg.fNum) * old s c + s.cfg.fNum * old s (3 + c)) / s.cfg.fDen := by
  have hn := s.cfg.ranges.two_le_n
  rw [old_smearStage h (by omega), smearByte_first _ _ _ hc, takeSnapshot_read s (by omega),
    takeSnapshot_read s (by omega)]
  rfl

theorem old_smearStage_interior {e c : Nat} (hc : c < 3) (he : 1 ≤ e) (hlast : e ≤ s.cfg.n - 2) :
    old (smearStage s).state (3 * e + c) = ((s.cfg.fDen - 2 * s.cfg.fNum) * old s (3 * e + c)
      + s.cfg.fNum * old s (3 * (e - 1) + c) + s.cfg.fNum * old s (3 * (e + 1) + c)) / s.cfg.fDen := by
  have hn := s.cfg.ranges.two_le_n
  rw [old_smearStage h (by omega), smearByte_interior _ _ _ hc he hlast, takeSnapshot_read s (by omega),
    takeSnapshot_read s (by omega), takeSnapshot_read s (by omega)]
  rfl

theorem old_smearStage_last {c : Nat} (hc : c < 3) :
    old (smearStage s).state (3 * (s.cfg.n - 1) + c) = ((s.cfg.fDen - s.cfg.fNum) * old s (3 * (s.cfg.n - 1) + c)
      + s.cfg.fNum * lastNeighbour s c) / s.cfg.fDen := by
  have hn := s.cfg.ranges.two_le_n
  rw [old_smearStage h (by omega), smearByte_last _ _ _ (lastValues_le _) hc, takeSnapshot_read s (by omega),
    lastValues_channel s hc]
  rfl

end NewBytes

/-! ## The command -/

/-- R72: all of CMD[23:0] of SMEAR is reserved. -/
theorem rowDecodes_smear : rowDecodes 0x05 0x00FFFFFF (fun _ _ => .smear) :=
  rowDecodes_of_row (k := 5) (b := 0xFF) (c := 0xFF) (d := 0xFF) rfl (by decide) (by decide) (by decide)

/-- R134: SMEAR runs its stage, whose outcome is the response. -/
theorem exec_smear_of_ready {s : State} (hs : s.ready) :
    exec .smear s = .next ((smearStage s).state.respond (outcomeWord (smearStage s).outcome)) :=
  hs.exec_eq_meaning .smear

theorem exec_smear_of_closed {s : State} (hs : s.ready) (htick : s.tick.toNat % 3 ≠ 0) :
    exec .smear s = .next { s with response := okResp 0 } := by
  rw [exec_smear_of_ready hs, smearStage_closed ((gateOpen_eq_false_iff s).2 htick), outcomeWord_false,
    State.respond_eq_okResp]

/-- Settles O17: with the gate open, the three formulas for the bytes, the snapshot, and the draws. -/
theorem smearBlendsSnapshot : Obligations.SmearBlendsSnapshot := by
  refine ⟨rowDecodes_smear, fun s hs => ⟨fun htick => ?_, exec_smear_of_closed hs⟩⟩
  have hgate : gateOpen s = true := (gateOpen_iff s).2 htick
  refine ⟨_, exec_smear_of_ready hs, fun c hc => ⟨old_smearStage_first hgate hc,
    fun e he hlast => old_smearStage_interior hgate hc he hlast, old_smearStage_last hgate hc⟩,
    fun a ha => read_smearStage_outside hgate ha, ?_⟩
  rw [smearStage_open_eq hgate, outcomeWord_true]
  exact ⟨Memory.read_writeAll s.scr (3 * s.cfg.n) s.fb.read, rfl, rfl⟩

/-! ## The rational blend -/

/-- R12: the weighted sum over F_DEN is the floor of the rational blend of two values. -/
theorem blend_two_eq_floor {d f : Nat} (hd : 1 ≤ d) (hf : f ≤ d) (x y : Nat) :
    ((((d - f) * x + f * y) / d : Nat) : Int) = ⌊(x : ℚ) * (1 - (f : ℚ) / d) + (f : ℚ) / d * y⌋ := by
  have hd0 : (d : ℚ) ≠ 0 := Nat.cast_ne_zero.2 (Nat.ne_of_gt hd)
  have hsum : (x : ℚ) * (1 - (f : ℚ) / d) + (f : ℚ) / d * y = (((d - f) * x + f * y : Nat) : ℚ) / d := by
    push_cast [Nat.cast_sub hf]
    field_simp
  rw [hsum]
  exact (Rat.floor_natCast_div_natCast _ _).symm

/-- The same of three values. -/
theorem blend_three_eq_floor {d f : Nat} (hd : 1 ≤ d) (hf : 2 * f ≤ d) (x y z : Nat) :
    ((((d - 2 * f) * x + f * y + f * z) / d : Nat) : Int) =
      ⌊(x : ℚ) * (1 - 2 * ((f : ℚ) / d)) + (f : ℚ) / d * y + (f : ℚ) / d * z⌋ := by
  have hd0 : (d : ℚ) ≠ 0 := Nat.cast_ne_zero.2 (Nat.ne_of_gt hd)
  have hsum : (x : ℚ) * (1 - 2 * ((f : ℚ) / d)) + (f : ℚ) / d * y + (f : ℚ) / d * z =
      (((d - 2 * f) * x + f * y + f * z : Nat) : ℚ) / d := by
    push_cast [Nat.cast_sub hf]
    field_simp
  rw [hsum]
  exact (Rat.floor_natCast_div_natCast _ _).symm

/-- Settles O18: each of the three formulas of the pass is a floor. -/
theorem smearIsFloorOfExactBlend : Obligations.SmearIsFloorOfExactBlend := by
  intro s hs htick
  have hgate : gateOpen s = true := (gateOpen_iff s).2 htick
  have hden := s.cfg.ranges.den_pos
  have hfactor := s.cfg.ranges.factor_le
  refine ⟨_, exec_smear_of_ready hs, fun c hc => ⟨?_, fun e he hlast => ?_, ?_, fun hsym => ?_⟩⟩
  · rw [← blend_two_eq_floor hden (by omega), ← old_smearStage_first hgate hc]
    rfl
  · rw [← blend_three_eq_floor hden hfactor, ← old_smearStage_interior hgate hc he hlast]
    rfl
  · rw [← blend_two_eq_floor hden (by omega), ← old_smearStage_last hgate hc]
    rfl
  · unfold lastNeighbour
    rw [hsym]
    rfl

/-! ## What a pass under SYMMETRIC keeps (R133) -/

/-- Under SYMMETRIC the new values of a channel lie within the bounds of its old ones. -/
theorem smearStage_bounds {s : State} (hsym : s.cfg.lastSrc = .symmetric) {c low high : Nat} (hc : c < 3)
    (hbounds : ∀ e, e < s.cfg.n → low ≤ old s (3 * e + c) ∧ old s (3 * e + c) ≤ high) {e : Nat} (he : e < s.cfg.n) :
    low ≤ old (smearStage s).state (3 * e + c) ∧ old (smearStage s).state (3 * e + c) ≤ high := by
  have hn := s.cfg.ranges.two_le_n
  have hden := s.cfg.ranges.den_pos
  have hfactor := s.cfg.ranges.factor_le
  have hneighbour : lastNeighbour s c = old s (3 * (s.cfg.n - 2) + c) := by
    unfold lastNeighbour
    rw [hsym]
    rfl
  cases hgate : gateOpen s with
  | false =>
    rw [smearStage_closed hgate]
    exact hbounds e he
  | true =>
    rcases Nat.eq_zero_or_pos e with rfl | hpos
    · have hfirst := hbounds 0 he
      rw [Nat.mul_zero, Nat.zero_add] at hfirst ⊢
      rw [old_smearStage_first hgate hc]
      exact blend_two hden (by omega) hfirst (hbounds 1 hn)
    · rcases Nat.lt_or_ge (s.cfg.n - 2) e with hlast | hinterior
      · obtain rfl : e = s.cfg.n - 1 := by omega
        rw [old_smearStage_last hgate hc, hneighbour]
        exact blend_two hden (by omega) (hbounds _ he) (hbounds _ (by omega))
      · rw [old_smearStage_interior hgate hc hpos hinterior]
        exact blend_three hden hfactor (hbounds e he) (hbounds _ (by omega)) (hbounds _ (by omega))

/-- Settles O20: the response beside it, SMEAR is the pass. -/
theorem smearKeepsColumnBounds : Obligations.SmearKeepsColumnBounds := by
  intro s c low high hs hsym hc hbounds
  exact ⟨_, exec_smear_of_ready hs, fun e he => smearStage_bounds hsym hc hbounds he⟩

/-- Settles O19: a uniform channel has one value as both its bounds. -/
theorem smearKeepsUniformBuffer : Obligations.SmearKeepsUniformBuffer := by
  intro s hs hsym huniform
  refine ⟨_, exec_smear_of_ready hs, fun a => ?_⟩
  show (smearStage s).state.fb.read a = s.fb.read a
  rcases Nat.lt_or_ge a (3 * s.cfg.n) with ha | ha
  · obtain ⟨e, c, hc, he, rfl⟩ : ∃ e c, c < 3 ∧ e < s.cfg.n ∧ a = 3 * e + c :=
      ⟨a / 3, a % 3, by omega, by omega, by omega⟩
    have hbounds (e : Nat) (he : e < s.cfg.n) : old s c ≤ old s (3 * e + c) ∧ old s (3 * e + c) ≤ old s c := by
      rw [old, old, huniform e c he hc]
      exact ⟨le_rfl, le_rfl⟩
    obtain ⟨hlow, hhigh⟩ := smearStage_bounds hsym hc hbounds he
    rw [huniform e c he hc]
    exact BitVec.eq_of_toNat_eq (Nat.le_antisymm hhigh hlow)
  · cases hgate : gateOpen s with
    | false => rw [smearStage_closed hgate]
    | true => exact read_smearStage_outside hgate ha

end Sys2Proof.Machine
end

section
/-! PROOFS. The events of a frame and of a tick: what a receiver gets, how many there are, and that DAT is stable
while CLK is high (spec/42_transmitter.md R161 to R164; spec/43_scheduler.md R181, R182). -/

namespace Sys2Proof.Machine

open Claims

/-! ## The receiver (R164 (a), (c)) -/

/-- A receiver of two lists gets the bits of the first, then, from the lines it leaves, those of the second. -/
theorem received_append (clk dat : Bool) (xs ys : List Event) :
    received clk dat (xs ++ ys) = received clk dat xs ++ received (clkAfter clk xs) (datAfter dat xs) ys := by
  induction xs generalizing clk dat with
  | nil => rfl
  | cons e xs ih =>
    cases e with
    | clk b =>
      simp only [List.cons_append, received, clkAfter, datAfter, ih]
      split <;> rfl
    | dat b => exact ih clk b
    | delayMs n => exact ih clk dat
    | delayUs n => exact ih clk dat

/-- Pieces that give the same bits from any line levels give them one after the other. -/
theorem received_flatMap {α : Type} {piece : α → List Event} {bits : α → List Bool}
    (h : ∀ x clk dat, received clk dat (piece x) = bits x) (l : List α) (clk dat : Bool) :
    received clk dat (l.flatMap piece) = l.flatMap bits := by
  induction l generalizing clk dat with
  | nil => rfl
  | cons x l ih => rw [List.flatMap_cons, List.flatMap_cons, received_append, h, ih]

theorem received_delayUsEvents (clk dat : Bool) (n : Nat) : received clk dat (delayUsEvents n) = [] := by
  unfold delayUsEvents
  split <;> rfl

theorem received_delayMsEvents (clk dat : Bool) (n : Nat) : received clk dat (delayMsEvents n) = [] := by
  unfold delayMsEvents
  split <;> rfl

/-- R161: a bit takes CLK low, sets DAT and raises CLK, so it is received once. -/
theorem received_bitEvents (p : Params) (b clk dat : Bool) : received clk dat (bitEvents p b) = [b] := by
  rw [bitEvents, received_append, received_delayUsEvents]
  cases clk <;> rfl

theorem received_byteEvents (p : Params) (v : Byte) (clk dat : Bool) :
    received clk dat (byteEvents p v) = (List.range 8).map (fun k => v.getLsbD (7 - k)) := by
  rw [byteEvents_eq_flatMap_range, received_append, received_delayUsEvents, List.append_nil,
    received_flatMap (fun k => received_bitEvents p (v.getLsbD (7 - k)))]
  rfl

theorem received_frameEvents (p : Params) (fb : Memory) (clk dat : Bool) :
    received clk dat (frameEvents p fb) =
      (List.range (3 * p.n)).flatMap (fun a => (List.range 8).map (fun k => (fb.read a).getLsbD (7 - k))) := by
  have hbytes := received_flatMap (fun a => received_byteEvents p (fb.read a)) (List.range (3 * p.n)) clk dat
  rw [frameEvents, received_append, received_append, received_delayMsEvents, bytesEvents_eq_flatMap_range',
    ← List.range_eq_range', hbytes, List.append_nil]
  exact List.append_nil _

/-- Eight bits of each address in turn are the bits of the addresses `k div 8`. -/
theorem flatMap_range_eight {α : Type} (f : Nat → Nat → α) (m : Nat) :
    (List.range m).flatMap (fun a => (List.range 8).map (f a)) =
      (List.range (8 * m)).map (fun k => f (k / 8) (k % 8)) := by
  induction m with
  | zero => rfl
  | succ m ih =>
    have hlast : (List.range 8).map (f m) = ((List.range 8).map (8 * m + ·)).map (fun k => f (k / 8) (k % 8)) := by
      rw [List.map_map]
      refine List.map_congr_left fun k hk => ?_
      have hk := List.mem_range.1 hk
      rw [Function.comp_apply, show (8 * m + k) / 8 = m by omega, show (8 * m + k) % 8 = k by omega]
    rw [List.range_succ (n := m), List.flatMap_append, ih, List.flatMap_singleton, hlast, Nat.mul_succ, List.range_add,
      List.map_append]

theorem received_frameEvents_eq_map (p : Params) (fb : Memory) (clk dat : Bool) :
    received clk dat (frameEvents p fb) =
      (List.range (24 * p.n)).map (fun k => (fb.read (k / 8)).getLsbD (7 - k % 8)) := by
  rw [received_frameEvents, flatMap_range_eight (fun a k => (fb.read a).getLsbD (7 - k)), ← Nat.mul_assoc]

/-- Settles O23: the frame is received bit by bit, and bit `k` of the list belongs to address `k div 8`. -/
theorem receiverRecoversFrameBuffer : Obligations.ReceiverRecoversFrameBuffer := by
  intro s hs hprompt
  refine ⟨_, _, exec_transmit_of_prompt hs hprompt, rfl, ?_, fun k hk => ?_⟩
  · rw [received_frameEvents_eq_map, List.length_map, List.length_range]
  · rw [received_frameEvents_eq_map, List.getElem?_map, List.getElem?_range hk]
    rfl

/-! ## Counting (R164 (b), R182) -/

/-- With no hooks a byte is 24 line writes. -/
theorem byteEvents_no_hooks {p : Params} (hbit : p.bitDelayUs = 0) (hbyte : p.byteDelayUs = 0) (v : Byte) :
    (byteEvents p v).length = 24 ∧ (byteEvents p v).all isLineWrite = true := by
  simp [byteEvents, bitEvents, delayUsEvents, hbit, hbyte, isLineWrite]

theorem bytesEvents_no_hooks {p : Params} (hbit : p.bitDelayUs = 0) (hbyte : p.byteDelayUs = 0) (fb : Memory)
    (start count : Nat) : (bytesEvents p fb start count).length = 24 * count ∧
      (bytesEvents p fb start count).all isLineWrite = true := by
  induction count generalizing start with
  | zero => exact ⟨rfl, rfl⟩
  | succ count ih =>
    obtain ⟨hlength, hlines⟩ := ih (start + 1)
    obtain ⟨hlength', hlines'⟩ := byteEvents_no_hooks hbit hbyte (fb.read start)
    rw [bytesEvents_succ, List.length_append, List.all_append, hlength, hlength', hlines, hlines']
    exact ⟨by omega, rfl⟩

theorem countP_of_all_lines {l : List Event} (h : l.all isLineWrite = true) :
    l.countP isLineWrite = l.length ∧ l.countP (fun e => !isLineWrite e) = 0 := by
  rw [List.all_eq_true] at h
  exact ⟨List.countP_eq_length.2 h, List.countP_eq_zero.2 fun e he => by simp [h e he]⟩

/-- Settles O24: the bytes are line writes alone, and what follows them is CLK low and the gap. -/
theorem frameEventCount : Obligations.FrameEventCount := by
  intro s hs hprompt hbit hbyte
  refine ⟨_, _, exec_transmit_of_prompt hs hprompt, rfl, ?_⟩
  obtain ⟨hlength, hlines⟩ := bytesEvents_no_hooks hbit hbyte s.fb 0 (3 * s.cfg.n)
  obtain ⟨hwrites, hdelays⟩ := countP_of_all_lines hlines
  simp only [frameEvents, List.countP_append, hwrites, hdelays, hlength, delayMsEvents_eq_ite_pos]
  split <;> simp [isLineWrite, ← Nat.mul_assoc]

/-- Settles O27: the bytes of the buffer after the stages, then the fixed tail of frame and tick. -/
theorem defaultTickTrace : Obligations.DefaultTickTrace := by
  intro s hs hprompt hbit hbyte hgap hwait
  have hport := SamePort.tickStages s
  obtain ⟨hlength, hlines⟩ := bytesEvents_no_hooks hbit hbyte (tickStages s).state.fb 0 (3 * s.cfg.n)
  refine ⟨_, _, exec_tick_of_prompt hs hprompt, ?_, hlength.trans (Nat.mul_assoc 24 3 _).symm, hlines⟩
  simp [tickEvents, frameEvents, delayMsEvents, hgap, hwait, hport.trace]

/-! ## DAT while CLK is high (R164 (d), R255) -/

theorem datOnlyWhileLow_append (clk : Bool) (xs ys : List Event) :
    datOnlyWhileLow clk (xs ++ ys) = (datOnlyWhileLow clk xs && datOnlyWhileLow (clkAfter clk xs) ys) := by
  induction xs generalizing clk with
  | nil => rfl
  | cons e xs ih =>
    cases e with
    | clk b => exact ih b
    | dat b => exact (congrArg (!clk && ·) (ih clk)).trans (Bool.and_assoc ..).symm
    | delayMs n => exact ih clk
    | delayUs n => exact ih clk

theorem datOnlyWhileLow_flatMap {α : Type} {piece : α → List Event} (h : ∀ x clk, datOnlyWhileLow clk (piece x) = true)
    (l : List α) (clk : Bool) : datOnlyWhileLow clk (l.flatMap piece) = true := by
  induction l generalizing clk with
  | nil => rfl
  | cons x l ih => rw [List.flatMap_cons, datOnlyWhileLow_append, h, ih]; rfl

theorem datOnlyWhileLow_delayUsEvents (clk : Bool) (n : Nat) : datOnlyWhileLow clk (delayUsEvents n) = true := by
  unfold delayUsEvents
  split <;> rfl

theorem datOnlyWhileLow_delayMsEvents (clk : Bool) (n : Nat) : datOnlyWhileLow clk (delayMsEvents n) = true := by
  unfold delayMsEvents
  split <;> rfl

/-- R161: a bit takes CLK low before it writes DAT. -/
theorem datOnlyWhileLow_bitEvents (p : Params) (b clk : Bool) : datOnlyWhileLow clk (bitEvents p b) = true := by
  rw [bitEvents, datOnlyWhileLow_append, datOnlyWhileLow_delayUsEvents]
  rfl

theorem datOnlyWhileLow_byteEvents (p : Params) (v : Byte) (clk : Bool) :
    datOnlyWhileLow clk (byteEvents p v) = true := by
  rw [byteEvents, datOnlyWhileLow_append, datOnlyWhileLow_delayUsEvents,
    datOnlyWhileLow_flatMap (fun j => datOnlyWhileLow_bitEvents p (v.getLsbD j))]
  rfl

theorem datOnlyWhileLow_frameEvents (p : Params) (fb : Memory) (clk : Bool) :
    datOnlyWhileLow clk (frameEvents p fb) = true := by
  rw [frameEvents, datOnlyWhileLow_append, datOnlyWhileLow_append, datOnlyWhileLow_delayMsEvents,
    bytesEvents_eq_flatMap_range', datOnlyWhileLow_flatMap (fun a => datOnlyWhileLow_byteEvents p (fb.read a))]
  rfl

theorem datOnlyWhileLow_tickEvents (p : Params) (fb : Memory) (clk : Bool) :
    datOnlyWhileLow clk (tickEvents p fb) = true := by
  rw [tickEvents, datOnlyWhileLow_append, datOnlyWhileLow_frameEvents]
  exact datOnlyWhileLow_delayMsEvents false p.tTickMs

/-- What an operation sends keeps DAT stable, whether it ends or stops at a delay, where its events do; and one that
ends leaves CLK low where they do. -/
theorem runOperation_datOnlyWhileLow {s : State} {events : List Event} (hstable : datOnlyWhileLow s.clk events = true)
    (hlow : clkAfter s.clk events = false) (ending : Ending) :
    ∃ sent, (s.runOperation events ending).trace = s.trace ++ sent ∧ datOnlyWhileLow s.clk sent = true ∧
      ((s.runOperation events ending).pending = none → (s.runOperation events ending).clk = false) := by
  rcases s.runOperation_cases events ending with ⟨left, h, -⟩ | ⟨before, delay, rest, rfl, -, -, h⟩
  · obtain ⟨_, _, hfinish⟩ := State.finish_frame { s.emit events with hold := left } ending
    rw [h, hfinish]
    exact ⟨events, rfl, hstable, fun _ => hlow⟩
  · rw [show before ++ delay :: rest = before ++ [delay] ++ rest by simp, datOnlyWhileLow_append, Bool.and_eq_true]
      at hstable
    rw [h]
    exact ⟨before ++ [delay], rfl, hstable.1, fun hp => nomatch hp⟩

/-- Settles O25: the events of both operations write DAT while CLK is low, and end with CLK low. -/
theorem dataStableWhileClockHigh : Obligations.DataStableWhileClockHigh := by
  rintro s i hs (rfl | rfl)
  · obtain ⟨sent, htrace, hstable, hlow⟩ := runOperation_datOnlyWhileLow (s := s)
      (datOnlyWhileLow_frameEvents s.cfg.toParams s.fb s.clk) (clkAfter_frameEvents _ _ _) .transmit
    exact ⟨_, sent, hs.exec_eq_meaning .transmit, htrace, hstable, hlow⟩
  · have hport := SamePort.tickStages s
    obtain ⟨sent, htrace, hstable, hlow⟩ := runOperation_datOnlyWhileLow (s := (tickStages s).state)
      (datOnlyWhileLow_tickEvents (tickStages s).state.cfg.toParams (tickStages s).state.fb _)
      (clkAfter_tickEvents _ _ _) (.tick (tickStages s).gated (tickStages s).fired)
    rw [hport.trace] at htrace
    rw [hport.clk] at hstable
    exact ⟨_, sent, hs.exec_eq_meaning .tick, htrace, hstable, hlow⟩

end Sys2Proof.Machine
end

section
/-! PROOFS. Ticks one after the other, and a tick of the autonomous loop (spec/43_scheduler.md R181 to R186). -/

namespace Sys2Proof.Machine

open Claims

/-! ## The gate across the wrap (R185) -/

/-- R181: the gate of a tick is that of TICK before it, since flicker leaves TICK. -/
theorem tickStages_gated (s : State) : (tickStages s).gated = gateOpen s := by
  have hgate : gateOpen (flickerStage .env s).state = gateOpen s := by
    obtain ⟨_, _, _, _, h⟩ := flickerStage_frame .env s
    rw [h]
    rfl
  show (smearStage (flickerStage .env s).state).outcome = gateOpen s
  rw [← hgate]
  cases h : gateOpen (flickerStage .env s).state with
  | true => rw [smearStage_open h]
  | false => rw [smearStage_closed h]

/-- R183: bit 1 of the response word is the gate. -/
theorem tickWord_getLsbD_one (gated fired : Bool) : (tickWord gated fired).getLsbD 1 = gated := by
  cases gated <;> cases fired <;> rfl

/-- Emitting, counting and responding leave a block ready, and its environment prompt. -/
theorem State.ready.endTick {s : State} (h : s.ready) (events : List Event) (v : Word) :
    ((s.emit events).countTick.respond v).ready := h

theorem State.prompt.endTick {s : State} (h : s.prompt) (events : List Event) (v : Word) :
    ((s.emit events).countTick.respond v).prompt := h

theorem State.ready.tickStages {s : State} (hs : s.ready) : (tickStages s).state.ready :=
  (hs.flickerStage .env).smearStage.decayStage

/-- One TICK of a prompt block: it stays ready and prompt, its counter steps, and bit 1 of the response is its gate. -/
theorem exec_tick_gate {s : State} (hs : s.ready) (hprompt : s.prompt) :
    ∃ t, exec .tick s = .next t ∧ t.ready ∧ t.prompt ∧ t.cfg = s.cfg ∧
      t.tick.toNat = (s.tick.toNat + 1) % 2 ^ s.cfg.wTick ∧
      (s.tick.toNat % 3 = 0 → respondsGated t) ∧ (s.tick.toNat % 3 ≠ 0 → respondsUngated t) := by
  refine ⟨_, exec_tick_of_prompt hs hprompt, hs.tickStages.endTick _ _, hprompt.tickStages.endTick _ _,
    ?_, ?_, fun hopen => ⟨_, rfl, ?_⟩, fun hclosed => ⟨_, rfl, ?_⟩⟩
  · rw [State.respond_cfg, State.countTick_cfg, State.emit_cfg, tickStages_cfg]
  · rw [State.respond_tick, State.countTick_tick, State.wrapW_toNat, State.emit_tick, State.emit_cfg, tickStages_cfg,
      tickStages_tick, BitVec.toNat_add, Nat.mod_mod_of_dvd _ s.cfg.pow_wTick_dvd]
    rfl
  · rw [tickWord_getLsbD_one, tickStages_gated]
    exact (gateOpen_iff s).2 hopen
  · rw [tickWord_getLsbD_one, tickStages_gated]
    exact (gateOpen_eq_false_iff s).2 hclosed

/-- R185: `2^W` is 1 modulo 3 for even W and 2 for odd W. -/
theorem two_pow_mod_three (w : Nat) : 2 ^ w % 3 = if w % 2 = 0 then 1 else 2 := by
  induction w with
  | zero => rfl
  | succ w ih =>
    rw [Nat.pow_succ, Nat.mul_mod, ih]
    rcases Nat.mod_two_eq_zero_or_one w with h | h
    · rw [if_pos h, if_neg (by omega)]
    · rw [if_neg (by omega), if_pos (by omega)]

/-- Settles O29: the gate of each tick by TICK modulo 3, from the tick before the wrap on. -/
theorem gateCadenceAcrossWrap : Obligations.GateCadenceAcrossWrap := by
  intro s hs hprompt
  have hpow := two_pow_mod_three s.cfg.wTick
  have hpos := s.cfg.pow_wTick_pos
  refine ⟨fun heven hlast => ?_, fun hodd hlast => ?_⟩
  · rw [if_pos heven] at hpow
    obtain ⟨t, htick, ht, htprompt, hcfg, hcount, hgated, -⟩ := exec_tick_gate hs hprompt
    obtain ⟨u, hutick, -, -, -, -, hugated, -⟩ := exec_tick_gate ht htprompt
    have hwrap : s.tick.toNat + 1 = 2 ^ s.cfg.wTick := by omega
    rw [hwrap, Nat.mod_self] at hcount
    exact ⟨t, u, htick, hgated (by omega), hutick, hugated (by omega)⟩
  · rw [if_neg (by omega)] at hpow
    obtain ⟨t, htick, ht, htprompt, hcfg, hcount, hgated, -⟩ := exec_tick_gate hs hprompt
    obtain ⟨u, hutick, hu, huprompt, -, hucount, -, huungated⟩ := exec_tick_gate ht htprompt
    obtain ⟨v, hvtick, -, -, -, -, hvgated, -⟩ := exec_tick_gate hu huprompt
    rw [Nat.mod_eq_of_lt (by omega)] at hcount
    have hwrap : t.tick.toNat + 1 = 2 ^ s.cfg.wTick := by omega
    rw [hcfg, hwrap, Nat.mod_self] at hucount
    exact ⟨t, u, v, htick, hgated (by omega), hutick, huungated (by omega), hvtick, hvgated (by omega)⟩

/-! ## The autonomous loop (R186) -/

/-- The operation of the loop is the one of TICK, whatever the mode and the error bit, but for the response and the name
of its ending. -/
theorem runOperation_loop {s : State} (hp : s.pending = none) (m : Mode) (e : Bool) (events : List Event)
    (gated fired : Bool) (t : State)
    (ht : t = State.runOperation { s with mode := m, err := e } events (.tick gated fired)) :
    s.runOperation events .loop =
      { t with
        mode := s.mode
        err := s.err
        response := s.response
        pending := t.pending.map (fun p => { p with ending := .loop }) } := by
  subst ht
  unfold State.runOperation
  simp only []
  cases (emission s.hold events).held with
  | none => simp [State.finish, State.countTick, State.respond, State.emit, hp, State.wrapW]
  | some held => rfl

theorem tickStages_mode_err (m : Mode) (e : Bool) (s : State) :
    tickStages { s with mode := m, err := e } =
      { fired := (tickStages s).fired
        gated := (tickStages s).gated
        state := { (tickStages s).state with mode := m, err := e } } := by
  have port := tickStages_port m e s.response s
  obtain ⟨_, _, _, _, _, _, h⟩ := tickStages_frame s
  rw [h] at port ⊢
  exact port

/-- R186: a quiet step of the loop is a tick. -/
theorem step_of_quiet_autonomous {s : State} (hm : s.mode = .autonomous) (hp : s.pending = none)
    (hquiet : s.env = [] ∨ s.env.head? = some .quiet) :
    step s = .next (sendTick (tickStages s.afterMove).state .loop) := by
  rw [step_of_quiet hquiet, quietStep_of_autonomous (s := s.afterMove) hm hp]

/-- Settles O30: the stages do not look at the port, and the operation of the loop is the one of TICK. -/
theorem autonomousStepIsTickOperation : Obligations.AutonomousStepIsTickOperation := by
  intro s hm hp hquiet
  have hport := SamePort.tickStages s.afterMove
  have hready : { s.afterMove with mode := .test, err := false }.ready := ⟨rfl, rfl, hp⟩
  have htick : meaning { s.afterMove with mode := .test, err := false } .tick =
      State.runOperation { (tickStages s.afterMove).state with mode := .test, err := false }
        (tickEvents (tickStages s.afterMove).state.cfg.toParams (tickStages s.afterMove).state.fb)
        (.tick (tickStages s.afterMove).gated (tickStages s.afterMove).fired) := by
    rw [meaning, tickStages_mode_err]
    rfl
  have hloop := runOperation_loop (hport.pending.trans hp) _ _ _ _ _ _ htick
  rw [hport.mode, hport.err, hport.response] at hloop
  refine ⟨_, hready.exec_eq_meaning .tick, ?_⟩
  rw [step_of_quiet_autonomous hm hp hquiet, sendTick, hloop,
    State.afterMove_mode, hm]
  rfl

end Sys2Proof.Machine
end

section
/-! PROOFS. Delays the environment keeps waiting: where an operation stops, what a stuck block does, and how a
completion ends it (spec/10_state.md R37, R40, R41, R43). -/

namespace Sys2Proof.Machine

open Claims

/-! ## Stopping at a delay (R37, R41) -/

theorem isLineWrite_eq_not_isDelay (e : Event) : isLineWrite e = !e.isDelay := by cases e <;> rfl

theorem isDelay_of_not_line {e : Event} (h : isLineWrite e = false) : e.isDelay = true := by
  rw [isLineWrite_eq_not_isDelay] at h
  simpa using h

/-- The statements count the delays the model counts. -/
theorem delays_eq_delayCount (events : List Event) : delays events = delayCount events := by
  unfold delays delayCount
  simp only [isLineWrite_eq_not_isDelay, Bool.not_not]

/-- A delay leaves the lines as they are. -/
theorem lines_after_delay {delay : Event} (h : delay.isDelay = true) (clk dat : Bool) (before : List Event) :
    clkAfter clk (before ++ [delay]) = clkAfter clk before ∧
      datAfter dat (before ++ [delay]) = datAfter dat before := by
  rw [clkAfter_append, datAfter_append]
  cases delay with
  | clk b => cases h
  | dat b => cases h
  | delayMs n => exact ⟨rfl, rfl⟩
  | delayUs n => exact ⟨rfl, rfl⟩

/-- An operation whose environment completes exactly the delays before one at once stops there. -/
theorem runOperation_of_held {s : State} {before : List Event} {delay : Event} {rest : List Event}
    (hdelay : isLineWrite delay = false) (hhold : s.hold = some (delays before)) (ending : Ending) :
    s.runOperation (before ++ delay :: rest) ending =
      { s with
        trace := s.trace ++ (before ++ [delay])
        clk := clkAfter s.clk before
        dat := datAfter s.dat before
        hold := none
        pending := some { delay := delay, rest := rest, ending := ending } } := by
  have hd := isDelay_of_not_line hdelay
  obtain ⟨hclk, hdat⟩ := lines_after_delay hd s.clk s.dat before
  rw [← hclk, ← hdat]
  unfold State.runOperation
  rw [hhold, delays_eq_delayCount, emission_of_held hd]
  rfl

/-- Settles O54: both operations run their events to the delay; TICK after its stages. -/
theorem heldDelayStopsOperation : Obligations.HeldDelayStopsOperation := by
  intro s before delay rest hs hdelay hhold
  have hflicker : (flickerStage .env s).state.ready := hs.flickerStage .env
  have hsmear := hflicker.smearStage
  have hport := SamePort.tickStages s
  refine ⟨fun hframe => ?_, _, _, _, exec_flicker_of_ready hs, exec_smear_of_respond hflicker _,
    exec_decay_of_respond hsmear _, fun hevents => ?_⟩
  · rw [hs.exec_eq_meaning, meaning, frameEvents_eq_frame, hframe, runOperation_of_held hdelay hhold]
  · have hevents : tickEvents (tickStages s).state.cfg.toParams (tickStages s).state.fb = before ++ delay :: rest := by
      rw [tickEvents_eq_append_tickTail, frameEvents_eq_frame]
      exact hevents
    rw [hs.exec_eq_meaning, meaning, sendTick, hevents, runOperation_of_held hdelay (hport.hold.trans hhold),
      hport.trace, hport.clk, hport.dat, ← hport.response]
    simp only [respond_outcomeWord_eq_okResp_one_iff, Bool.decide_eq_true]
    rfl

/-! ## A stuck block (R40, U21) -/

theorem takeCommand_of_busy {s : State} (h : s.busy = true) (cmd arg : Word) : takeCommand cmd arg s = .next s := by
  cases hdecode : decode cmd arg with
  | ok i => rw [takeCommand_of_ok hdecode, exec_of_busy i h]
  | error e => rw [takeCommand_of_error hdecode, rejectWord_of_busy h]

/-- Settles O55: what a block with a delay pending does with each move that is no reset and no completion. -/
theorem pendingDelayBlocksUntilCompleted : Obligations.PendingDelayBlocksUntilCompleted := by
  intro s hp hnoreset hnodone
  obtain ⟨p, hpending⟩ := Option.ne_none_iff_exists'.1 hp
  have hquiet (h : s.env = [] ∨ s.env.head? = some .quiet) : step s = .next { s with env := s.env.tail } := by
    rw [step_of_quiet h, quietStep_of_pending (s := s.afterMove) hpending]
    rfl
  refine ⟨fun hm => ⟨?_, fun i => exec_of_busy i (State.busy_iff.2 ⟨hm, hp⟩)⟩, fun _ => hquiet,
    fun hm cmd arg hmove => ?_⟩
  · rcases s.env_cases with h | ⟨cmd, arg, rest, henv⟩ | ⟨testMode, rest, henv⟩ | ⟨hold, rest, henv⟩
    · exact hquiet h
    · rw [step_of_command henv, takeCommand_of_busy (s := { s with env := rest }) (State.busy_iff.2 ⟨hm, hp⟩), henv]
      rfl
    · exact absurd (by rw [henv]; rfl) (hnoreset testMode)
    · exact absurd (by rw [henv]; rfl) (hnodone hold)
  · obtain ⟨rest, henv⟩ : ∃ rest, s.env = .command cmd arg :: rest := List.head?_eq_some_iff.1 hmove
    rw [step_of_command henv, takeCommand_of_autonomous (s := { s with env := rest }) hm, henv]
    rfl

/-! ## Completing it (R37, R231) -/

/-- An operation does not look at the schedule. -/
theorem runOperation_env (s : State) (env : List EnvMove) (events : List Event) (ending : Ending) :
    State.runOperation { s with env := env } events ending = { s.runOperation events ending with env := env } := by
  unfold State.runOperation
  simp only []
  cases (emission s.hold events).held with
  | none => cases ending <;> rfl
  | some held => rfl

/-- A step that completes every delay, taken after an operation, leaves the state the operation reaches where every
delay is completed at once. -/
theorem step_runOperation_delayDone {s : State} (hp : s.pending = none) {events : List Event} {ending : Ending}
    {rest : List EnvMove} (henv : s.env = .delayDone none :: rest) :
    step (s.runOperation events ending) =
      .next { State.runOperation { s with hold := none } events ending with env := rest } := by
  have hkeeps : (s.runOperation events ending).env = .delayDone none :: rest := by
    obtain ⟨_, _, _, _, _, _, _, h⟩ := s.runOperation_frame events ending
    rw [h]
    exact henv
  rw [step_of_delayDone hkeeps, State.completeDelay_runOperation hp]

/-- The stages of a tick and its operation, with the plan for delays replaced before both. -/
theorem sendTick_hold (s : State) (hold : Option Nat) (ending : Ending) :
    sendTick (tickStages { s with hold := hold }).state ending =
      State.runOperation { (tickStages s).state with hold := hold }
        (tickEvents (tickStages s).state.cfg.toParams (tickStages s).state.fb) ending := by
  rw [sendTick, tickStages_hold]

/-- A tick, then a step that completes every delay. -/
theorem step_sendTick_delayDone {s : State} (hp : s.pending = none) {ending : Ending} {rest : List EnvMove}
    (henv : s.env = .delayDone none :: rest) :
    step (sendTick (tickStages s).state ending) =
      .next { sendTick (tickStages { s with hold := none }).state ending with env := rest } := by
  have hport := SamePort.tickStages s
  rw [sendTick_hold s none ending, sendTick]
  exact step_runOperation_delayDone (hport.pending.trans hp) (hport.env.trans henv)

/-- Settles O56: each operation runs, and the completion finishes what is left of it. -/
theorem completionFinishesOperation : Obligations.CompletionFinishesOperation := by
  refine ⟨fun i s t v rest hs hi henv ht hv => ?_, fun s t v rest hm hp henv ht hv => ?_,
    fun s t v k rest hp ht hv => ?_⟩
  · have hs' : { s with hold := none }.ready := hs
    obtain ⟨-, -, hp⟩ := id hs
    rw [hs.exec_eq_meaning] at ht
    rw [hs'.exec_eq_meaning] at hv
    cases ht
    cases hv
    rcases hi with rfl | rfl
    · exact step_runOperation_delayDone hp henv
    · rw [meaning, meaning, tickStages_hold none s]
      have := step_sendTick_delayDone hp (ending := .tick (tickStages s).gated (tickStages s).fired) henv
      rw [tickStages_hold none s] at this
      exact this
  · have hquiet : s.env.head? = some .quiet := by rw [henv]; rfl
    rw [step_of_quiet_autonomous hm hp (.inr hquiet)] at ht
    rw [step_of_quiet_autonomous (s := { s with hold := none }) hm hp (.inr hquiet)] at hv
    cases ht
    cases hv
    exact step_sendTick_delayDone (s := s.afterMove) hp (by rw [State.afterMove_env, henv]; rfl)
  · obtain ⟨p, hpending⟩ := Option.ne_none_iff_exists'.1 hp
    rw [step_of_delayDone rfl] at ht hv
    simp only [State.completeDelay, hpending] at ht hv
    cases ht
    cases hv
    have hcompleted := step_runOperation_delayDone (events := p.rest) (ending := p.ending)
      (s := { s with env := .delayDone none :: rest, pending := none, hold := some k }) rfl rfl
    rw [hcompleted, ← runOperation_env]

end Sys2Proof.Machine
end

section
/-! PROOFS. The contents of SCR are not observable: a smear pass fills it before it reads it (spec/10_state.md R25, R41;
spec/41_effects.md R132). -/

namespace Sys2Proof.Machine

open Claims

/-! ## A smear pass from another SCR -/

/-- A whole-array write looks at the new values of its own addresses alone. -/
theorem Memory.writeAll_congr {size : Nat} {f g : Nat → Byte} (h : ∀ a, a < size → f a = g a) (m : Memory) :
    m.writeAll size f = m.writeAll size g := by
  have cells : ∀ count start, start + count = size → cellsOf f start count = cellsOf g start count := by
    intro count
    induction count with
    | zero => intros; rfl
    | succ count ih =>
      intro start hsum
      simp only [cellsOf, h start (by omega), ih (start + 1) (by omega)]
  unfold Memory.writeAll
  rw [cells size 0 (Nat.zero_add size)]

/-- A byte address of the strip belongs to its first, an interior or its last element. -/
theorem element_cases {n a : Nat} (hn : 2 ≤ n) (ha : a < 3 * n) :
    ∃ c, c < 3 ∧ (a = c ∨ (∃ e, 1 ≤ e ∧ e ≤ n - 2 ∧ a = 3 * e + c) ∨ a = 3 * (n - 1) + c) := by
  refine ⟨a % 3, by omega, ?_⟩
  rcases Nat.lt_or_ge a 3 with hfirst | hfirst
  · exact .inl (by omega)
  · rcases Nat.lt_or_ge a (3 * (n - 1)) with hinterior | hlast
    · exact .inr (.inl ⟨a / 3, by omega, by omega, by omega⟩)
    · exact .inr (.inr (by omega))

/-- R132: the new bytes are those of the old buffer, whatever SCR held. -/
theorem old_smearStage_scr {s : State} (h : gateOpen s = true) (m : Memory) {a : Nat} (ha : a < 3 * s.cfg.n) :
    old (smearStage { s with scr := m }).state a = old (smearStage s).state a := by
  have h' : gateOpen { s with scr := m } = true := h
  obtain ⟨c, hc, rfl | ⟨e, he, hlast, rfl⟩ | rfl⟩ := element_cases s.cfg.ranges.two_le_n ha
  · rw [old_smearStage_first h hc, old_smearStage_first h' hc]
    rfl
  · rw [old_smearStage_interior h hc he hlast, old_smearStage_interior h' hc he hlast]
    rfl
  · rw [old_smearStage_last h hc]
    exact old_smearStage_last h' hc

theorem smearStage_scr (s : State) (m : Memory) : ∃ m', smearStage { s with scr := m } =
    { outcome := (smearStage s).outcome, state := { (smearStage s).state with scr := m' } } := by
  cases hg : gateOpen s with
  | false =>
    rw [smearStage_closed hg, smearStage_closed (s := { s with scr := m }) hg]
    exact ⟨m, rfl⟩
  | true =>
    have hbytes (a : Nat) (ha : a < s.size) :
        smearByte s.cfg.toParams (takeSnapshot { s with scr := m }).scr
            (lastValues (takeSnapshot { s with scr := m })) a =
          smearByte s.cfg.toParams (takeSnapshot s).scr (lastValues (takeSnapshot s)) a := by
      have hold := old_smearStage_scr hg m ha
      rw [old_smearStage hg ha, old_smearStage (s := { s with scr := m }) hg ha] at hold
      exact BitVec.eq_of_toNat_eq hold
    have hfb := Memory.writeAll_congr hbytes s.fb
    refine ⟨m.writeAll s.size s.fb.read, ?_⟩
    rw [smearStage_open_eq hg, smearStage_open_eq (s := { s with scr := m }) hg, ← hfb]
    rfl

/-! ## What looks at SCR nowhere -/

theorem flickerStage_scr (src : DrawSource) (s : State) (m : Memory) : flickerStage src { s with scr := m } =
    { outcome := (flickerStage src s).outcome, state := { (flickerStage src s).state with scr := m } } := by
  rcases Nat.lt_or_ge (src.interval s) (flickerDistance s) with h | h
  · rw [flickerStage_fires h, flickerStage_fires (s := { s with scr := m }) (by cases src <;> exact h)]
    cases src <;> rfl
  · rw [flickerStage_rests h, flickerStage_rests (s := { s with scr := m }) (by cases src <;> exact h)]
    cases src <;> rfl

theorem decayStage_scr (s : State) (m : Memory) : decayStage { s with scr := m } =
    { outcome := (decayStage s).outcome, state := { (decayStage s).state with scr := m } } := by
  cases hg : gateOpen s with
  | false => rw [decayStage_closed hg, decayStage_closed (s := { s with scr := m }) hg]
  | true =>
    rw [decayStage_open hg, decayStage_open (s := { s with scr := m }) hg]
    rfl

theorem tickStages_scr (s : State) (m : Memory) : ∃ m', tickStages { s with scr := m } =
    { fired := (tickStages s).fired
      gated := (tickStages s).gated
      state := { (tickStages s).state with scr := m' } } := by
  obtain ⟨m', hsmear⟩ := smearStage_scr (flickerStage .env s).state m
  refine ⟨m', ?_⟩
  simp only [tickStages]
  rw [flickerStage_scr, hsmear, decayStage_scr]

theorem runOperation_scr (s : State) (m : Memory) (events : List Event) (ending : Ending) :
    State.runOperation { s with scr := m } events ending = { s.runOperation events ending with scr := m } := by
  unfold State.runOperation
  simp only []
  cases (emission s.hold events).held with
  | none => cases ending <;> rfl
  | some held => rfl

theorem sendTick_scr (s : State) (m : Memory) (ending : Ending) :
    sendTick { s with scr := m } ending = { sendTick s ending with scr := m } :=
  runOperation_scr s m _ ending

theorem completeDelay_scr (s : State) (m : Memory) (hold : Option Nat) :
    State.completeDelay { s with scr := m } hold = { s.completeDelay hold with scr := m } := by
  unfold State.completeDelay
  simp only []
  cases s.pending with
  | none => rfl
  | some p => exact runOperation_scr { s with pending := none, hold := hold } m p.rest p.ending

theorem quietStep_scr (s : State) (m : Memory) :
    ∃ m', quietStep { s with scr := m } = { quietStep s with scr := m' } := by
  have waits (u : State) (hu : ¬ (u.mode = .autonomous ∧ u.pending = none)) : quietStep u = u :=
    (quietStep_cases u).resolve_right fun ⟨hm, hp, _⟩ => hu ⟨hm, hp⟩
  by_cases h : s.mode = .autonomous ∧ s.pending = none
  · obtain ⟨hm, hp⟩ := h
    obtain ⟨m', h⟩ := tickStages_scr s m
    refine ⟨m', ?_⟩
    rw [quietStep_of_autonomous hm hp, quietStep_of_autonomous (s := { s with scr := m }) hm hp, h, sendTick_scr]
  · exact ⟨m, by rw [waits s h, waits { s with scr := m } h]⟩

/-! ## Commands and steps -/

theorem writeReg_scr (s : State) (m : Memory) (reg : BitVec 4) (value : Word) :
    State.writeReg { s with scr := m } reg value = (s.writeReg reg value).map (fun t => { t with scr := m }) := by
  unfold State.writeReg
  split <;> rfl

theorem meaning_scr (s : State) (m : Memory) (i : Instr) :
    ∃ m', meaning { s with scr := m } i = { meaning s i with scr := m' } := by
  cases i with
  | nop => exact ⟨m, rfl⟩
  | hsv hue sat => exact ⟨m, rfl⟩
  | paint idx hue sat =>
    refine ⟨m, ?_⟩
    show (if s.validIndex idx then _ else _) = _
    simp only [meaning]
    split <;> rfl
  | flicker =>
    refine ⟨m, ?_⟩
    simp only [meaning]
    rw [flickerStage_scr]
    rfl
  | flickerx idx hue rdraw =>
    refine ⟨m, ?_⟩
    show (if s.validIndex idx then if s.validDraw rdraw then _ else _ else _) = _
    simp only [meaning]
    rw [flickerStage_scr]
    split
    · split <;> rfl
    · rfl
  | smear =>
    obtain ⟨m', h⟩ := smearStage_scr s m
    refine ⟨m', ?_⟩
    simp only [meaning]
    rw [h]
    rfl
  | decay =>
    refine ⟨m, ?_⟩
    simp only [meaning]
    rw [decayStage_scr]
    rfl
  | transmit => exact ⟨m, runOperation_scr s m _ _⟩
  | tick =>
    obtain ⟨m', h⟩ := tickStages_scr s m
    refine ⟨m', ?_⟩
    simp only [meaning]
    rw [h, sendTick_scr]
  | rdbuf addr =>
    refine ⟨m, ?_⟩
    show (if s.validAddr addr then _ else _) = _
    simp only [meaning]
    split <;> rfl
  | wrbuf addr data =>
    refine ⟨m, ?_⟩
    show (if s.validAddr addr then _ else _) = _
    simp only [meaning]
    split <;> rfl
  | rdreg reg =>
    refine ⟨m, ?_⟩
    show (s.readReg reg).elim _ _ = _
    simp only [meaning]
    cases s.readReg reg <;> rfl
  | wrreg reg value =>
    refine ⟨m, ?_⟩
    simp only [meaning]
    rw [writeReg_scr]
    cases s.writeReg reg value <;> rfl

/-- The port does not look at SCR. -/
theorem exec_scr (i : Instr) (s : State) (m : Memory) :
    ∃ t m', exec i s = .next t ∧ exec i { s with scr := m } = .next { t with scr := m' } := by
  obtain ⟨m', hmeaning⟩ := meaning_scr s m i
  have hcommand := exec_eq_command i { s with scr := m }
  rw [exec_eq_command]
  cases hb : s.busy with
  | true =>
    rw [State.command_of_busy (s := { s with scr := m }) hb] at hcommand
    exact ⟨_, m, rfl, by rw [hcommand, State.command_of_busy hb]⟩
  | false =>
    cases ha : s.admits (inspectsState i) with
    | true =>
      rw [State.command_of_admits (s := { s with scr := m }) hb ha, hmeaning] at hcommand
      exact ⟨_, m', rfl, by rw [hcommand, State.command_of_admits hb ha]⟩
    | false =>
      rw [State.command_of_not_admits (s := { s with scr := m }) hb ha] at hcommand
      exact ⟨_, m, rfl, by rw [hcommand, State.command_of_not_admits hb ha]; rfl⟩

theorem rejectWord_scr (s : State) (m : Memory) (e : CmdError) :
    State.rejectWord { s with scr := m } e = { s.rejectWord e with scr := m } := by
  cases hb : s.busy with
  | true => rw [rejectWord_of_busy hb, rejectWord_of_busy (s := { s with scr := m }) hb]
  | false =>
    by_cases hm : s.mode = .autonomous
    · rw [rejectWord_of_autonomous hm, rejectWord_of_autonomous (s := { s with scr := m }) hm]
      rfl
    · have hp := (State.busy_eq_false_iff.1 hb).resolve_left hm
      have hm : s.mode = .test := by cases h : s.mode with | test => rfl | autonomous => exact absurd h hm
      rw [rejectWord_of_test hm hp, rejectWord_of_test (s := { s with scr := m }) hm hp]
      rfl

/-- Settles O46: one case per move of the environment. -/
theorem scratchIsUnobservable : Obligations.ScratchIsUnobservable := by
  intro s m
  have quiet (hquiet : s.env = [] ∨ s.env.head? = some .quiet) :
      ∃ t m', step s = .next t ∧ step { s with scr := m } = .next { t with scr := m' } := by
    obtain ⟨m', h⟩ := quietStep_scr s.afterMove m
    rw [step_of_quiet hquiet, step_of_quiet (s := { s with scr := m }) hquiet]
    exact ⟨_, m', rfl, congrArg _ h⟩
  rcases s.env_cases with hquiet | ⟨cmd, arg, rest, henv⟩ | ⟨testMode, rest, henv⟩ | ⟨hold, rest, henv⟩
  · exact quiet hquiet
  · rw [step_of_command henv, step_of_command (s := { s with scr := m }) henv]
    cases hdecode : decode cmd arg with
    | ok i =>
      rw [takeCommand_of_ok hdecode, takeCommand_of_ok hdecode]
      exact exec_scr i { s with env := rest } m
    | error e =>
      rw [takeCommand_of_error hdecode, takeCommand_of_error hdecode]
      exact ⟨_, m, rfl, congrArg _ (rejectWord_scr { s with env := rest } m e)⟩
  · rw [step_of_reset henv, step_of_reset (s := { s with scr := m }) henv]
    exact ⟨_, { cells := [] }, rfl, rfl⟩
  · rw [step_of_delayDone henv, step_of_delayDone (s := { s with scr := m }) henv]
    exact ⟨_, m, rfl, congrArg _ (completeDelay_scr { s with env := rest } m hold)⟩

end Sys2Proof.Machine
end

section
/-! PROOFS. The assembler's words, its rejections, and SETRGB as three steps (spec/30_encoding.md R72, R76, R77). -/

namespace Sys2Proof.Machine

open Claims

/-! ## The check -/

theorem fits_of_lt {width v : Nat} (h : v < 2 ^ width) : fits width v = true := decide_eq_true h

theorem fits_of_le {width v : Nat} (h : 2 ^ width ≤ v) : fits width v = false := decide_eq_false (Nat.not_lt.2 h)

theorem assemble_of_wellFormed (n : Nat) (line : Asm) (h : line.wellFormed = true) :
    assemble n line = some ((asmInstrs n line).map encode) := if_pos h

theorem assemble_of_illFormed (n : Nat) (line : Asm) (h : line.wellFormed = false) : assemble n line = none :=
  if_neg (by rw [h]; exact Bool.false_ne_true)

/-- A line of one command. -/
theorem assemble_single {n : Nat} {line : Asm} {i : Instr} {words : Word × Word}
    (hline : asmInstrs n line = [i]) (hwords : encode i = words) (h : line.wellFormed = true) :
    assemble n line = some [words] := by
  rw [assemble_of_wellFormed n line h, hline, List.map_singleton, hwords]

/-! ## The words of a command with operands as numbers (R72) -/

/-- A command word packed from numbers that fit their bytes. -/
theorem packCmd_ofNat {o b c d : Nat} (hb : b < 256) (hc : c < 256) (hd : d < 256) :
    packCmd (BitVec.ofNat 8 o) (BitVec.ofNat 8 b) (BitVec.ofNat 8 c) (BitVec.ofNat 8 d) =
      BitVec.ofNat 32 (o * 16777216 + b * 65536 + c * 256 + d) := by
  apply BitVec.eq_of_toNat_eq
  rw [toNat_packCmd]
  simp only [BitVec.toNat_ofNat]
  omega

section Words

variable {hue sat r data reg : Nat}

theorem encode_hsv_ofNat (hhue : hue < 256) (hsat : sat < 256) :
    encode (.hsv (BitVec.ofNat 8 hue) (BitVec.ofNat 8 sat)) = (BitVec.ofNat 32 (0x01000000 + sat * 256 + hue), 0) :=
  congrArg (·, 0) ((packCmd_ofNat (o := 1) (b := 0) (by decide) hsat hhue).trans (by congr 1))

theorem encode_paint_ofNat (hhue : hue < 256) (hsat : sat < 256) (idx : Word) :
    encode (.paint idx (BitVec.ofNat 8 hue) (BitVec.ofNat 8 sat)) =
      (BitVec.ofNat 32 (0x02000000 + sat * 256 + hue), idx) :=
  congrArg (·, idx) ((packCmd_ofNat (o := 2) (b := 0) (by decide) hsat hhue).trans (by congr 1))

theorem encode_flickerx_ofNat (hhue : hue < 256) (hr : r < 256) (idx : Word) :
    encode (.flickerx idx (BitVec.ofNat 8 hue) (BitVec.ofNat 8 r)) =
      (BitVec.ofNat 32 (0x04000000 + r * 65536 + hue), idx) :=
  congrArg (·, idx) ((packCmd_ofNat (o := 4) (c := 0) hr (by decide) hhue).trans (by congr 1))

theorem encode_wrbuf_ofNat (hdata : data < 256) (addr : Nat) :
    encode (writeByteInstr addr data) = wrbufWords addr data :=
  congrArg (·, BitVec.ofNat 32 addr)
    ((packCmd_ofNat (o := 10) (b := 0) (c := 0) (by decide) (by decide) hdata).trans (by congr 1))

theorem setWidth_ofNat_reg (hreg : reg < 16) : (BitVec.ofNat 4 reg).setWidth 8 = BitVec.ofNat 8 reg := by
  apply BitVec.eq_of_toNat_eq
  simp only [BitVec.toNat_setWidth, BitVec.toNat_ofNat]
  omega

theorem encode_rdreg_ofNat (hreg : reg < 16) :
    encode (.rdreg (BitVec.ofNat 4 reg)) = (BitVec.ofNat 32 (0x0B000000 + reg), 0) := by
  rw [encode, setWidth_ofNat_reg hreg]
  exact congrArg (·, 0)
    ((packCmd_ofNat (o := 11) (b := 0) (c := 0) (by decide) (by decide) (by omega)).trans (by congr 1))

theorem encode_wrreg_ofNat (hreg : reg < 16) (value : Word) :
    encode (.wrreg (BitVec.ofNat 4 reg) value) = (BitVec.ofNat 32 (0x0C000000 + reg), value) := by
  rw [encode, setWidth_ofNat_reg hreg]
  exact congrArg (·, value)
    ((packCmd_ofNat (o := 12) (b := 0) (c := 0) (by decide) (by decide) (by omega)).trans (by congr 1))

end Words

/-- R76: the names stand for the numbers of the register map. -/
theorem regNumber_of_registerNames {name : RegName} {number : Nat} (h : (name, number) ∈ registerNames) :
    regNumber (.name name) = number ∧ number < 16 := by
  have names : ∀ p ∈ registerNames, regNumber (.name p.1) = p.2 ∧ p.2 < 16 := by decide
  exact names _ h

/-! ## Command lines (R76) -/

/-- A register operand whose number fits. -/
theorem assemble_register (n : Nat) {operand : RegOperand} {reg value : Nat} (hoperand : operand.fits = true)
    (hnumber : regNumber operand = reg) (hreg : reg < 16) (hvalue : value < 2 ^ 32) :
    assemble n (.rdreg operand) = some [(BitVec.ofNat 32 (0x0B000000 + reg), 0)] ∧
    assemble n (.wrreg operand value) = some [(BitVec.ofNat 32 (0x0C000000 + reg), BitVec.ofNat 32 value)] := by
  subst hnumber
  refine ⟨assemble_single rfl (encode_rdreg_ofNat hreg) hoperand, assemble_single rfl (encode_wrreg_ofNat hreg _) ?_⟩
  rw [Asm.wellFormed, hoperand, fits_of_lt hvalue]
  rfl

/-- Settles O51: the words of each line by its encoding, and the check by the operand that does not fit. -/
theorem assemblerWritesWords : Obligations.AssemblerWritesWords := by
  intro n hue sat idx r data reg value
  refine ⟨fun hhue hsat hr hdata hreg hidx hvalue => ?_, fun hhue => ?_, fun hsat => ?_, fun hr => ?_, fun hdata => ?_,
    fun hreg => ?_, fun hidx => ?_, fun hvalue operand => ?_⟩
  · have fhue := fits_of_lt (width := 8) hhue
    have fsat := fits_of_lt (width := 8) hsat
    have fr := fits_of_lt (width := 8) hr
    have fdata := fits_of_lt (width := 8) hdata
    have fidx := fits_of_lt hidx
    obtain ⟨hrdreg, hwrreg⟩ :=
      assemble_register n (operand := .number reg) (fits_of_lt (width := 4) hreg) rfl hreg hvalue
    refine ⟨rfl, assemble_single rfl (encode_hsv_ofNat hhue hsat) ?_,
      assemble_single rfl (encode_paint_ofNat hhue hsat _) ?_, rfl,
      assemble_single rfl (encode_flickerx_ofNat hhue hr _) ?_, rfl, rfl, rfl, rfl, assemble_single rfl rfl fidx,
      assemble_single rfl (encode_wrbuf_ofNat hdata idx) ?_, hrdreg, hwrreg, fun name number hname => ?_⟩
    · rw [Asm.wellFormed, fhue, fsat]; rfl
    · rw [Asm.wellFormed, fidx, fhue, fsat]; rfl
    · rw [Asm.wellFormed, fidx, fhue, fr]; rfl
    · rw [Asm.wellFormed, fidx, fdata]; rfl
    · obtain ⟨hnumber, hlt⟩ := regNumber_of_registerNames hname
      exact assemble_register n rfl hnumber hlt hvalue
  · have fhue := fits_of_le (width := 8) hhue
    exact ⟨assemble_of_illFormed _ _ (by simp [Asm.wellFormed, fhue]),
      assemble_of_illFormed _ _ (by simp [Asm.wellFormed, fhue]),
      assemble_of_illFormed _ _ (by simp [Asm.wellFormed, fhue])⟩
  · have fsat := fits_of_le (width := 8) hsat
    exact ⟨assemble_of_illFormed _ _ (by simp [Asm.wellFormed, fsat]),
      assemble_of_illFormed _ _ (by simp [Asm.wellFormed, fsat])⟩
  · exact assemble_of_illFormed _ _ (by simp [Asm.wellFormed, fits_of_le (width := 8) hr])
  · exact assemble_of_illFormed _ _ (by simp [Asm.wellFormed, fits_of_le (width := 8) hdata])
  · have freg : (RegOperand.number reg).fits = false := fits_of_le (width := 4) hreg
    exact ⟨assemble_of_illFormed _ (.rdreg _) freg, assemble_of_illFormed _ _ (by simp [Asm.wellFormed, freg])⟩
  · have fidx := fits_of_le hidx
    exact ⟨assemble_of_illFormed _ _ (by simp [Asm.wellFormed, fidx]),
      assemble_of_illFormed _ _ (by simp [Asm.wellFormed, fidx]),
      assemble_of_illFormed _ (.rdbuf _) fidx, assemble_of_illFormed _ _ (by simp [Asm.wellFormed, fidx])⟩
  · exact assemble_of_illFormed _ _ (by simp [Asm.wellFormed, fits_of_le hvalue])

/-! ## Pseudo-instructions (R77) -/

theorem assemble_setrgb (n : Nat) {idx r g b : Nat} (hidx : 3 * idx + 2 < 2 ^ 32) (hr : r < 256) (hg : g < 256)
    (hb : b < 256) : assemble n (.setrgb idx r g b) = some ([writeByteInstr (3 * idx) r, writeByteInstr (3 * idx + 1) g,
      writeByteInstr (3 * idx + 2) b].map encode) := by
  refine assemble_of_wellFormed n (.setrgb idx r g b) ?_
  rw [Asm.wellFormed, fits_of_lt hidx, fits_of_lt (width := 8) hr, fits_of_lt (width := 8) hg,
    fits_of_lt (width := 8) hb]
  rfl

/-- Settles O57: the expansion of each pseudo-instruction, and the check on its operands. -/
theorem pseudoInstructionsExpand : Obligations.PseudoInstructionsExpand := by
  intro n idx r g b v k
  refine ⟨fun hidx hr hg hb hv => ⟨?_, assemble_of_wellFormed n (.getrgb idx) (fits_of_lt hidx),
    assemble_of_wellFormed n (.settick v) (fits_of_lt hv), assemble_of_wellFormed n (.setlast v) (fits_of_lt hv)⟩,
    rfl, ?_, fun _ => ?_, fun hidx => ?_, fun hrgb => ?_, fun hv => ?_⟩
  · rw [assemble_setrgb n hidx hr hg hb, List.map_cons, List.map_cons, List.map_singleton, encode_wrbuf_ofNat hr,
      encode_wrbuf_ofNat hg, encode_wrbuf_ofNat hb]
  · rw [assemble_of_wellFormed n (.run k) rfl, asmInstrs, List.map_replicate]
    rfl
  · rw [assemble_of_wellFormed n .clearfb rfl, asmInstrs, List.map_map]
    exact congrArg some (List.map_congr_left fun a _ => encode_wrbuf_ofNat (by decide) a)
  · have fidx := fits_of_le hidx
    exact ⟨assemble_of_illFormed _ _ (by simp [Asm.wellFormed, fidx]), assemble_of_illFormed n (.getrgb idx) fidx⟩
  · refine assemble_of_illFormed _ _ ?_
    rcases hrgb with h | h | h <;> simp [Asm.wellFormed, fits_of_le (width := 8) h]
  · exact ⟨assemble_of_illFormed n (.settick v) (fits_of_le hv), assemble_of_illFormed n (.setlast v) (fits_of_le hv)⟩

/-! ## SETRGB over three steps -/

/-- A step on the words of a WRBUF inside the strip. -/
theorem step_writeByte {s : State} (hs : s.ready) {addr data : Nat} (haddr : addr < 3 * s.cfg.n) {rest : List EnvMove}
    (henv : s.env = .command (encode (writeByteInstr addr data)).1 (encode (writeByteInstr addr data)).2 :: rest) :
    step s = .next ({ s with env := rest, fb := s.fb.write addr (BitVec.ofNat 8 data) }.respond 0) := by
  have hready : { s with env := rest }.ready := hs
  have hsize := s.cfg.ranges.size_le
  have hnat : (BitVec.ofNat 32 addr).toNat = addr := by
    rw [BitVec.toNat_ofNat]
    exact Nat.mod_eq_of_lt (by omega)
  rw [step_of_command henv, takeCommand_of_ok (decodeOfEncode _), writeByteInstr,
    exec_wrbuf_of_lt hready (by rw [hnat]; exact haddr), hnat]

/-- Settles O52: three steps, one byte each. -/
theorem setrgbExpansionSetsElement : Obligations.SetrgbExpansionSetsElement := by
  intro s idx r g b hs hwf hidx hr hg hb
  have hsize := s.cfg.ranges.size_le
  refine ⟨_, assemble_setrgb s.cfg.n (by omega) hr hg hb, rfl, ?_⟩
  refine ⟨_, _, _, step_writeByte (by exact hs) (by show _ < 3 * s.cfg.n; omega) rfl,
    step_writeByte (by exact hs) (by show _ < 3 * s.cfg.n; omega) rfl,
    step_writeByte (by exact hs) (by show _ < 3 * s.cfg.n; omega) rfl, ?_⟩
  exact Memory.read_writeElement hwf idx
    { r := BitVec.ofNat 8 r, g := BitVec.ofNat 8 g, b := BitVec.ofNat 8 b }

end Sys2Proof.Machine
end
